-- ==== Sys2Proof/Word.lean ====
section
/-! DEFINITION. The bit-vector types of XCORE: register contents, the words of its four encoded interfaces, and the
active register width. -/

namespace Sys2Proof

/-- A register, an address or a control word: `XLEN_MAX = 64` bits (R22, R25; decisions D7, D8). -/
abbrev Word := BitVec 64

/-- One command, format `CMD`, 104 bits (R91). -/
abbrev CommandWord := BitVec 104

/-- One handler outcome, format `OUT`, 66 bits (R96). -/
abbrev OutcomeWord := BitVec 66

/-- One fetch response, format `FRSP`, 49 bits (R97). -/
abbrev FetchWord := BitVec 49

/-- One STEP response, format `SRSP`, 67 bits (R98). -/
abbrev StepWord := BitVec 67

/-- A fetched instruction: 32 bits that XCORE never looks into (R72). -/
abbrev InsnWord := BitVec 32

/-- The token of an entry of the external function table (R72). -/
abbrev HandlerToken := BitVec 16

/-- A trap cause code (R29, R201). -/
abbrev Cause := BitVec 5

/-- The active register width, 32 or 64 (R24). -/
inductive XprLen where
  | w32
  | w64
  deriving DecidableEq, Repr

/-- The number READ answers for the width (R99, selector `0x0E`). -/
def XprLen.bits : XprLen → Nat
  | .w32 => 32
  | .w64 => 64

end Sys2Proof
end

