-- ==== Sys2Proof/Syntax.lean ====
section
/-! DEFINITION. XCORE's commands, one constructor per row of spec/opcode_table.json (R12, R93). -/

namespace Sys2Proof

/-- The target field `t` (R91, R92): `0xFFFF` is the processor the command is presented to, anything else the index
of one of its lanes. -/
inductive Target where
  | self
  | lane (i : Nat)
  deriving DecidableEq, Repr

/-- A command with its operands taken out of the `a`, `t` and `v` fields (R91, R93, R94). -/
inductive Instr where
  /-- RESET, `0x01` (R231). -/
  | reset (t : Target)
  /-- STEP, `0x02` (R136): `tracing = a[0]`, `n = v`. -/
  | step (t : Target) (tracing : Bool) (n : BitVec 64)
  /-- DELIVER_IRQ, `0x03` (R124): `kind = a[2:0]`. -/
  | deliverIrq (t : Target) (kind : BitVec 3)
  /-- READ, `0x04` (R181): `sel = a[7:0]`. -/
  | read (t : Target) (sel : BitVec 8)
  /-- SET_STATUS, `0x10` (R111): `value = v[31:0]`. -/
  | setStatus (t : Target) (value : BitVec 32)
  /-- SET_FSTATUS, `0x11` (R114): `value = v[31:0]`. -/
  | setFstatus (t : Target) (value : BitVec 32)
  /-- WRITE_CR, `0x20` (R182): `sel = a[7:0]`, `value = v`. -/
  | writeCr (t : Target) (sel : BitVec 8) (value : BitVec 64)
  /-- CLEAR_PENDING, `0x21` (R126): `mask = a[7:0]`. -/
  | clearPending (t : Target) (mask : BitVec 8)
  /-- WRITE_XPR, `0x30` (R184): `index = a[4:0]`, `value = v`. -/
  | writeXpr (t : Target) (index : BitVec 5) (value : BitVec 64)
  /-- WRITE_FPR, `0x31` (R185): `index = a[4:0]`, `value = v`. -/
  | writeFpr (t : Target) (index : BitVec 5) (value : BitVec 64)
  /-- SET_VREGS, `0x40` (R161): `nxpr = a[5:0]`, `nfpr = a[13:8]`. -/
  | setVregs (t : Target) (nxpr nfpr : BitVec 6)
  /-- SET_BANKS, `0x41` (R162): `mask = a[15:0]`, of which the low `N_BANKS` bits are used. -/
  | setBanks (t : Target) (mask : BitVec 16)
  /-- RECOMPUTE_VLMAX, `0x42` (R163). -/
  | recomputeVlmax (t : Target)
  /-- SET_VL, `0x43` (R165): `requested = v`. -/
  | setVl (t : Target) (requested : BitVec 64)
  /-- START, `0x44` (R168): `target pc = v`, the lane in `t`. -/
  | start (t : Target) (target : BitVec 64)
  deriving DecidableEq, Repr

end Sys2Proof
end

