-- ==== Sys2Proof/WellFormed.lean ====
section
/-! DEFINITION. Which terms of `Instr` a command word can encode. Every operand but a lane index has the width of its
field in its type; a lane index fits the 16-bit `t` field and is not `0xFFFF`, which means the processor itself
(R91, R92). -/

namespace Sys2Proof

/-- A lane index is at most `0xFFFE`. -/
def Target.wf : Target → Bool
  | .self => true
  | .lane i => decide (i < 0xFFFF)

/-- The target operand of a command. -/
def Instr.target : Instr → Target
  | .reset t => t
  | .step t _ _ => t
  | .deliverIrq t _ => t
  | .read t _ => t
  | .setStatus t _ => t
  | .setFstatus t _ => t
  | .writeCr t _ _ => t
  | .clearPending t _ => t
  | .writeXpr t _ _ => t
  | .writeFpr t _ _ => t
  | .setVregs t _ _ => t
  | .setBanks t _ => t
  | .recomputeVlmax t => t
  | .setVl t _ => t
  | .start t _ => t

/-- The command has an encoding. -/
def Instr.wf (i : Instr) : Bool := i.target.wf

end Sys2Proof
end

