-- ==== Sys2Proof/Decode.lean ====
section
/-! DEFINITION. The four encoded interfaces of XCORE (R90): the command word (R91 to R94), the outcome word (R96), the
fetch response (R97) and the STEP response (R98), each decoded and encoded. -/

namespace Sys2Proof

/-- Why a command word names no command (R100). -/
inductive DecodeError where
  /-- The opcode is in none of R93's rows: `FATAL(bad_opcode)` on the processor the word was presented to. -/
  | badOpcode (op : BitVec 8)
  deriving DecidableEq, Repr

/-- Field `op`, bits 7:0 (R91). -/
def fieldOp (w : CommandWord) : BitVec 8 := w.extractLsb' 0 8

/-- Field `a`, bits 23:8 (R91). -/
def fieldA (w : CommandWord) : BitVec 16 := w.extractLsb' 8 16

/-- Field `t`, bits 39:24 (R91). -/
def fieldT (w : CommandWord) : BitVec 16 := w.extractLsb' 24 16

/-- Field `v`, bits 103:40 (R91). -/
def fieldV (w : CommandWord) : BitVec 64 := w.extractLsb' 40 64

/-- The target a `t` field names (R92). -/
def decodeTarget (t : BitVec 16) : Target :=
  if t = 0xFFFF#16 then .self else .lane t.toNat

/-- The command a word stands for (R93); operand bits no operation names are ignored (R94), every other opcode is
illegal (R100). -/
def decode (w : CommandWord) : Except DecodeError Instr :=
  let a := fieldA w
  let t := decodeTarget (fieldT w)
  let v := fieldV w
  match (fieldOp w).toNat with
  | 0x01 => .ok (.reset t)
  | 0x02 => .ok (.step t (a.getLsbD 0) v)
  | 0x03 => .ok (.deliverIrq t (a.extractLsb' 0 3))
  | 0x04 => .ok (.read t (a.extractLsb' 0 8))
  | 0x10 => .ok (.setStatus t (v.extractLsb' 0 32))
  | 0x11 => .ok (.setFstatus t (v.extractLsb' 0 32))
  | 0x20 => .ok (.writeCr t (a.extractLsb' 0 8) v)
  | 0x21 => .ok (.clearPending t (a.extractLsb' 0 8))
  | 0x30 => .ok (.writeXpr t (a.extractLsb' 0 5) v)
  | 0x31 => .ok (.writeFpr t (a.extractLsb' 0 5) v)
  | 0x40 => .ok (.setVregs t (a.extractLsb' 0 6) (a.extractLsb' 8 6))
  | 0x41 => .ok (.setBanks t a)
  | 0x42 => .ok (.recomputeVlmax t)
  | 0x43 => .ok (.setVl t v)
  | 0x44 => .ok (.start t v)
  | _ => .error (.badOpcode (fieldOp w))

/-- The `t` field of a target (R92). -/
def encodeTarget : Target → BitVec 16
  | .self => 0xFFFF#16
  | .lane i => BitVec.ofNat 16 i

/-- A command word from its four fields, in R91's order `v t a op`. -/
def packCommand (op : BitVec 8) (a : BitVec 16) (t : Target) (v : BitVec 64) : CommandWord :=
  v ++ encodeTarget t ++ a ++ op

/-- The word of a command (R93), with every operand bit that its operation does not name 0. -/
def encode : Instr → CommandWord
  | .reset t => packCommand 0x01 0 t 0
  | .step t tr n => packCommand 0x02 (BitVec.setWidth 16 (BitVec.ofBool tr)) t n
  | .deliverIrq t k => packCommand 0x03 (k.setWidth 16) t 0
  | .read t sel => packCommand 0x04 (sel.setWidth 16) t 0
  | .setStatus t v => packCommand 0x10 0 t (v.setWidth 64)
  | .setFstatus t v => packCommand 0x11 0 t (v.setWidth 64)
  | .writeCr t sel v => packCommand 0x20 (sel.setWidth 16) t v
  | .clearPending t m => packCommand 0x21 (m.setWidth 16) t 0
  | .writeXpr t i v => packCommand 0x30 (i.setWidth 16) t v
  | .writeFpr t i v => packCommand 0x31 (i.setWidth 16) t v
  | .setVregs t x f => packCommand 0x40 ((0#2 ++ f ++ 0#2 ++ x : BitVec 16)) t 0
  | .setBanks t m => packCommand 0x41 m t 0
  | .recomputeVlmax t => packCommand 0x42 0 t 0
  | .setVl t v => packCommand 0x43 0 t v
  | .start t v => packCommand 0x44 0 t v

/-- The opcode of a command (R93). -/
def Instr.opcode : Instr → BitVec 8
  | .reset _ => 0x01
  | .step _ _ _ => 0x02
  | .deliverIrq _ _ => 0x03
  | .read _ _ => 0x04
  | .setStatus _ _ => 0x10
  | .setFstatus _ _ => 0x11
  | .writeCr _ _ _ => 0x20
  | .clearPending _ _ => 0x21
  | .writeXpr _ _ _ => 0x30
  | .writeFpr _ _ _ => 0x31
  | .setVregs _ _ _ => 0x40
  | .setBanks _ _ => 0x41
  | .recomputeVlmax _ => 0x42
  | .setVl _ _ => 0x43
  | .start _ _ => 0x44

/-- The 104-bit word whose low `nbits` bits are those of `w` and whose other bits are 0, as the opcode table numbers
them. -/
def tableWord (nbits w : Nat) : CommandWord := BitVec.ofNat 104 (w % 2 ^ nbits)

/-- The command the decoder reads from a word numbered as spec/opcode_table.json numbers it. -/
def decodeTableWord (nbits w : Nat) : Option Instr :=
  match decode (tableWord nbits w) with
  | .ok i => some i
  | .error _ => none

/-- What a handler returns (R96). -/
inductive HandlerOutcome where
  | continueAt (npc : Word)
  | trap (c : Cause)
  | laneComplete
  | halt
  deriving DecidableEq, Repr

/-- The outcome an `OUT` word stands for: `kind` in bits 1:0, `payload` in bits 65:2; all four kinds are defined
(R96). -/
def decodeOutcome (w : OutcomeWord) : HandlerOutcome :=
  match (w.extractLsb' 0 2).toNat with
  | 0 => .continueAt (w.extractLsb' 2 64)
  | 1 => .trap (w.extractLsb' 2 5)
  | 2 => .laneComplete
  | _ => .halt

/-- The `OUT` word of an outcome, ignored payload bits 0 (R96). -/
def encodeOutcome : HandlerOutcome → OutcomeWord
  | .continueAt npc => npc ++ 0#2
  | .trap c => (c.setWidth 64) ++ 1#2
  | .laneComplete => 2
  | .halt => 3

/-- What the MMU answers to a fetch (R71, R97). -/
inductive FetchResult where
  | fetched (insn : InsnWord) (handler : HandlerToken)
  | fetchFault (c : Cause)
  deriving DecidableEq, Repr

/-- The answer an `FRSP` word stands for: `fault` in bit 0; `insn` in 32:1 and `handler` in 48:33, or the cause in
5:1 (R97). -/
def decodeFetch (w : FetchWord) : FetchResult :=
  if w.getLsbD 0 then .fetchFault (w.extractLsb' 1 5)
  else .fetched (w.extractLsb' 1 32) (w.extractLsb' 33 16)

/-- The `FRSP` word of an answer, ignored bits 0 (R97). -/
def encodeFetch : FetchResult → FetchWord
  | .fetched insn h => h ++ insn ++ 0#1
  | .fetchFault c => (c.setWidth 48) ++ 1#1

/-- How a STEP ended (R98). -/
inductive StepExit where
  | budget
  | laneComplete
  | halted
  | parked
  | fatal
  deriving DecidableEq, Repr

/-- The `exit` code (R98). -/
def StepExit.code : StepExit → BitVec 3
  | .budget => 0
  | .laneComplete => 1
  | .halted => 2
  | .parked => 3
  | .fatal => 4

/-- The `SRSP` word: `exit` in bits 2:0, `retired` in bits 66:3 (R98). -/
def encodeStepResponse (e : StepExit) (retired : Nat) : StepWord :=
  BitVec.ofNat 64 retired ++ e.code

end Sys2Proof
end

