-- ==== Sys2Proof/Config.lean ====
section
/-! DEFINITION. What is fixed at construction (R11, R113), the numbers the spec decides once for every processor, and
the free values: what a collaborator answers when nothing in `State` scripts the answer. -/

namespace Sys2Proof

/-- The construction-time configuration of one processor (R11). No operation changes it (R113); a lane uses its
owner's. It is held in `State`, so that a claim about every state is a claim about every configuration. -/
structure Config where
  /-- `CAP_64BIT`: 64-bit mode configured in. -/
  cap64 : Bool
  /-- `CAP_FPU`: floating point configured in. -/
  capFpu : Bool
  /-- `CAP_RVC`: compressed instructions configured in. -/
  capRvc : Bool
  /-- `CAP_VEC`: vector configured in. -/
  capVec : Bool
  /-- `CORE_ID`: the numeric core id. -/
  coreId : BitVec 32
  /-- `MAX_LANES`: size of the lane array. -/
  maxLanes : Nat
  /-- `N_BANKS`: total lane-bank count. -/
  nBanks : Nat
  /-- `BANK_REGS`: per-lane register-file partition size; also the `bank_regs` of R43. -/
  bankRegs : Nat
  /-- `RESET_STATUS_RAW`: what RESET writes to the status register, before canonicalisation. -/
  resetStatusRaw : BitVec 32
  /-- `RESET_PC`. -/
  resetPc : Word
  /-- `RESET_EVEC`. -/
  resetEvec : Word
  deriving DecidableEq, Repr

namespace Config

/-- The ranges R11 gives the parameters: `MAX_LANES` 1 to 65535, `N_BANKS` 1 to 16; `BANK_REGS` is readable as a
64-bit value (R99, selector `0x13`). -/
def wf (c : Config) : Bool :=
  decide (1 ≤ c.maxLanes) && decide (c.maxLanes ≤ 65535) && decide (1 ≤ c.nBanks) && decide (c.nBanks ≤ 16)
    && decide (c.bankRegs < 2 ^ 64)

/-- The configuration of `State.reset`: the defaults of R11, and for the parameters R11 leaves OPEN without a default
(the four capabilities, `CORE_ID`) the common convention of the spec's test vectors (95_test_vectors.md).
DESIGN CHOICE, log entry 1: unsafe only for a claim about `State.reset` itself. -/
def standard : Config where
  cap64 := true
  capFpu := true
  capRvc := true
  capVec := true
  coreId := 0
  maxLanes := 2048
  nBanks := 8
  bankRegs := 256
  resetStatusRaw := 0x0000FFA1
  resetPc := 0
  resetEvec := 0

/-- Free value: the answer to the k-th unscripted `Mmu.fetchInstruction` (U10: what a fetch returns is external).
Log entry 5. -/
opaque freeFetch : Nat → FetchWord

/-- Free value: what the handler of the k-th unscripted call does, the command words it issues in order and the
outcome word it returns (U9: a parameter). Log entry 5. -/
opaque freeExecution : Nat → List CommandWord × OutcomeWord

/-- Free value: the answer to the k-th unscripted `Mmu.getLastBadVirtualAddress` (R75, U7: any value). Log entry 5. -/
opaque freeBadAddr : Nat → Word

/-- Free value: what a READ of any selector but `fatal` answers while the latch is set (R181, U12: any value).
Log entry 6. -/
opaque freeRead : Nat → Word

end Config

/-- `TIMER_IRQ`: the pending bit the timer sets (R11, R204; decision D5). -/
def timerIrq : Nat := 7

/-- `IPI_IRQ`: the conventional kind of an inter-processor wake-up (R11, R204; decision D5). -/
def ipiIrq : Nat := 5

/-- `IRQ_CAUSE_BASE`: the cause code of interrupt 0 (R11, R201; decision D6). -/
def irqCauseBase : Nat := 16

/-- The first unrecognised cause code; 24 to 31 are `FATAL(bad_cause)` (R201, R203). -/
def firstBadCause : Nat := 24

end Sys2Proof
end

