-- ==== Sys2Proof/Machine/Proc.lean ====
section
/-! DEFINITION. The processor record (R20), the same shape for a top-level processor and for a lane (R47), and the
small types around it: which record is meant, who issues a command, why a latch was set, what the block emits. -/

namespace Sys2Proof.Machine

/-- One processor record, top-level or lane (R20 to R46, R49, R50, R58); `bank_regs` (R43) is `Config.bankRegs` and
the lane array of a top-level record is `State.lanes`. -/
structure Proc where
  /-- `id` (R21). -/
  id : BitVec 32
  /-- `lane_index`, `-1` for a top-level processor (R21). -/
  laneIndex : Int
  /-- Integer register file; register 0 is ordinary storage (R22). -/
  x : Vector Word 32
  /-- Floating-point register file, bit patterns only (R23). -/
  f : Vector Word 32
  /-- `xprlen`, written only by setStatus (R24). -/
  xprlen : XprLen
  /-- `pc` (R25). -/
  pc : Word
  /-- `epc` (R26). -/
  epc : Word
  /-- `evec` (R27). -/
  evec : Word
  /-- `badvaddr` (R28). -/
  badvaddr : Word
  /-- `cause` (R29). -/
  cause : Cause
  /-- `SR` (R30). -/
  sr : BitVec 32
  /-- `FSR` (R34). -/
  fsr : BitVec 32
  /-- `k0` (R35). -/
  k0 : Word
  /-- `k1` (R35). -/
  k1 : Word
  /-- `cycle` (R36). -/
  cycle : BitVec 64
  /-- `count` (R37). -/
  count : BitVec 32
  /-- `compare` (R38). -/
  compare : BitVec 32
  /-- `pending` (R39). -/
  pending : BitVec 8
  /-- `run` (R40). -/
  run : Bool
  /-- `vecbanks`, of which the low `N_BANKS` bits exist (R41). -/
  vecbanks : BitVec 16
  /-- `vecbanks_count` (R42). -/
  vecbanksCount : Nat
  /-- `nxpr_use` (R44). -/
  nxprUse : BitVec 6
  /-- `nfpr_use` (R44). -/
  nfprUse : BitVec 6
  /-- `vlmax`, a natural number (R45). -/
  vlmax : Nat
  /-- `vl`, a natural number (R46). -/
  vl : Nat
  /-- `mmu_vm`, mirror of the mode pushed to the MMU (R49). -/
  mmuVm : Bool
  /-- `mmu_s`, mirror of the mode pushed to the MMU (R49). -/
  mmuS : Bool
  /-- `flush_count` (R50). -/
  flushCount : Nat
  /-- `fatal` (R58). -/
  fatal : Bool
  deriving DecidableEq, Repr

/-- Which record of the processor is meant. -/
inductive Who where
  | top
  | lane (i : Nat)
  deriving DecidableEq, Repr

/-- Who issues the commands `exec` runs (R95): the harness (IDLE), or the handler of a record that is inside a STEP
with this tracing flag (EXEC). -/
inductive Context where
  | idle
  | exec (who : Who) (tracing : Bool)
  deriving DecidableEq, Repr

/-- The reason of a `FATAL(reason)` (R226). -/
inductive FatalReason where
  | badCause
  | laneCompleteOnTop
  | badOpcode
  | badSelector
  | badTarget
  | reentrant
  deriving DecidableEq, Repr

/-- What the block emits: calls of the MMU (R71, R73 to R75), handler calls (R139), trace events (R222), responses
(R93, R98), and the reason of a FATAL (R226). Nothing in the machine reads them (log entry 10). -/
inductive Event where
  | setVirtualMemoryEnabled (who : Who) (on : Bool)
  | setSupervisorMode (who : Who) (on : Bool)
  | flushTranslationCache (who : Who)
  | getLastBadVirtualAddress (who : Who)
  | fetchInstruction (who : Who) (pc : Word) (compressedEnabled : Bool)
  | callHandler (who : Who) (handler : HandlerToken) (insn : InsnWord) (pc : Word)
  | traceInsn (id : BitVec 32) (pc : Word) (insn : InsnWord)
  | traceTrap (id : BitVec 32) (c : Cause) (pc : Word)
  | readValue (v : Word)
  | stepResponse (w : StepWord)
  | fatal (who : Who) (reason : FatalReason)
  deriving DecidableEq, Repr

/-- One run of a handler (R139, R149): the command words it issues, in order, and the outcome word it returns;
`none` is a handler that never returns (R153, U11). -/
structure Execution where
  commands : List CommandWord
  outcome : Option OutcomeWord
  deriving DecidableEq, Repr

/-- A harness DELIVER_IRQ that arrives while a STEP is in progress (R152). -/
structure Delivery where
  target : Target
  kind : BitVec 3
  deriving DecidableEq, Repr

end Sys2Proof.Machine
end

