-- ==== Sys2Proof/Machine/Flags.lean ====
section
/-! DEFINITION. The status registers' fields and masks (R30 to R34), the canonicalisation and the derived width
(R24, R32, R111), the status a trap entry and a trap return leave (R122, R212), and the choice of an interrupt
(R121). -/

namespace Sys2Proof.Machine

/-- `SR.ET`, the trap-enable bit (R30). -/
def srET (sr : BitVec 32) : Bool := sr.getLsbD 0
/-- `SR.EF`, the floating-enable bit (R30). -/
def srEF (sr : BitVec 32) : Bool := sr.getLsbD 1
/-- `SR.EV`, the vector-enable bit (R30). -/
def srEV (sr : BitVec 32) : Bool := sr.getLsbD 2
/-- `SR.EC`, the compressed-enable bit (R30). -/
def srEC (sr : BitVec 32) : Bool := sr.getLsbD 3
/-- `SR.PS`, the previous-supervisor bit (R30, conflict C1). -/
def srPS (sr : BitVec 32) : Bool := sr.getLsbD 4
/-- `SR.S`, the privilege bit (R30). -/
def srS (sr : BitVec 32) : Bool := sr.getLsbD 5
/-- `SR.UX`, the 64-bit-mode-for-user bit (R30). -/
def srUX (sr : BitVec 32) : Bool := sr.getLsbD 6
/-- `SR.SX`, the 64-bit-mode-for-supervisor bit (R30). -/
def srSX (sr : BitVec 32) : Bool := sr.getLsbD 7
/-- `SR.IM`, the interrupt-mask bits 15:8 (R30). -/
def srIM (sr : BitVec 32) : BitVec 8 := sr.extractLsb' 8 8
/-- `SR.VM`, the virtual-memory-enable bit (R30). -/
def srVM (sr : BitVec 32) : Bool := sr.getLsbD 16

/-- `SR_VALID`: bits 31:17 are reserved-zero (R31). -/
def srValid : BitVec 32 := 0x0001FFFF

/-- `FSR_VALID`: bits 31:8 are reserved-zero (R34). -/
def fsrValid : BitVec 32 := 0x000000FF

/-- `SR_CAP`: the status bits a configuration can hold (R32). -/
def srCap (c : Config) : BitVec 32 :=
  srValid &&& ~~~(if c.cap64 then 0 else 0x000000C0) &&& ~~~(if c.capFpu then 0 else 0x00000002)
    &&& ~~~(if c.capRvc then 0 else 0x00000008) &&& ~~~(if c.capVec then 0 else 0x00000004)

/-- The active register width of a status value (R24). -/
def xprlenOf (sr : BitVec 32) : XprLen :=
  if (if srS sr then srSX sr else srUX sr) then .w64 else .w32

/-- The status a trap entry writes: ET cleared, S set, PS the old S, every other bit kept (R122). -/
def trapEntryStatus (sr : BitVec 32) : BitVec 32 :=
  let new := sr &&& ~~~0x00000001#32
  let new := new ||| 0x00000020#32
  (new &&& ~~~0x00000010#32) ||| ((BitVec.ofBool (srS sr)).setWidth 32 <<< 4)

/-- The status a trap return writes: S from PS, ET set, every other bit kept (R212). -/
def trapReturnStatus (sr : BitVec 32) : BitVec 32 :=
  (sr &&& ~~~0x00000020#32) ||| ((BitVec.ofBool (srPS sr)).setWidth 32 <<< 5) ||| 0x00000001#32

/-- The status a lane's RESET starts from: EF and EV forced on (R231, R232). -/
def laneResetStatus (raw : BitVec 32) : BitVec 32 := raw ||| 0x00000006#32

/-- `lowbit`: the index of the least significant one bit (R13), if there is one. -/
def lowbit (m : BitVec 8) : Option Nat := (List.range 8).find? (fun i => m.getLsbD i)

/-- The bank bits a configuration has, `2^N_BANKS - 1` (R41, R231). -/
def bankMask (c : Config) : BitVec 16 := BitVec.ofNat 16 (2 ^ c.nBanks - 1)

/-- `popcount` of a bank mask (R13, R42). -/
def popcount (v : BitVec 16) : Nat := (List.range 16).countP (fun i => v.getLsbD i)

/-- The pending bit of line `N`. -/
def irqBit (n : Nat) : BitVec 8 := 1#8 <<< n

/-- takeInterruptIfAny: the trap of the lowest-numbered line that is pending and enabled, if ET is set (R121). -/
def takeInterruptIfAny (p : Proc) : Option Cause :=
  if srET p.sr then (lowbit (p.pending &&& srIM p.sr)).map (fun n => BitVec.ofNat 5 (irqCauseBase + n)) else none

end Sys2Proof.Machine
end

