-- ==== Sys2Proof/Machine/ProcOps.lean ====
section
/-! DEFINITION. The operations on one processor record: the Status State Machine (R111, R114), the writes of trap
entry (R122), the timer (R176), the vector lengths (R163, R165), reset (R231) and construction (R186). -/

namespace Sys2Proof.Machine

namespace Proc

/-- setStatus: canonicalise, push the mode, flush, recompute the width (R111). -/
def setStatus (c : Config) (value : BitVec 32) (p : Proc) : Proc :=
  let s := value &&& srCap c
  { p with sr := s, mmuVm := srVM s, mmuS := srS s, flushCount := p.flushCount + 1, xprlen := xprlenOf s }

/-- setFloatingStatus (R114). -/
def setFloatingStatus (value : BitVec 32) (p : Proc) : Proc :=
  { p with fsr := value &&& fsrValid }

/-- The writes of enterTrap for a recognised cause (R122), `b` being what the MMU answered for the bad address. -/
def enterTrap (c : Config) (code : Cause) (b : Word) (p : Proc) : Proc :=
  let q := p.setStatus c (trapEntryStatus p.sr)
  { q with cause := code, epc := p.pc, pc := p.evec, badvaddr := b }

/-- timerUpdate: `count` advances and the timer bit is set on a crossing of `compare`, compared on the unwrapped
sum (R176). -/
def timerUpdate (retired : Nat) (p : Proc) : Proc :=
  { p with
    count := BitVec.ofNat 32 (p.count.toNat + retired)
    pending :=
      if p.count.toNat < p.compare.toNat ∧ p.compare.toNat ≤ p.count.toNat + retired then
        p.pending ||| irqBit timerIrq
      else p.pending }

/-- The update after the loop: `cycle`, then the timer, by the same count (R146). -/
def closeBatch (retired : Nat) (p : Proc) : Proc :=
  { p with cycle := p.cycle + BitVec.ofNat 64 retired }.timerUpdate retired

/-- deliverExternalInterrupt (R124). -/
def deliver (kind : BitVec 3) (p : Proc) : Proc :=
  { p with pending := p.pending ||| irqBit kind.toNat, run := true }

/-- clearPending (R126). -/
def clearPending (mask : BitVec 8) (p : Proc) : Proc :=
  { p with pending := p.pending &&& ~~~mask }

/-- SET_VREGS (R161). -/
def setVregs (nxpr nfpr : BitVec 6) (p : Proc) : Proc :=
  { p with nxprUse := nxpr, nfprUse := nfpr }

/-- SET_BANKS: the low `N_BANKS` bits of the operand, and their count (R162). -/
def setBanks (c : Config) (mask : BitVec 16) (p : Proc) : Proc :=
  let m := mask &&& bankMask c
  { p with vecbanks := m, vecbanksCount := popcount m }

/-- The unclamped maximum vector length for `req` requested registers and `banks` active banks (R163). -/
def vlCapacity (bankRegs req banks : Nat) : Nat :=
  if req < 2 then bankRegs * banks else (bankRegs / (req - 1)) * banks

/-- recomputeMaxVectorLength, with the clamp of `vl` (R163, conflict C5). -/
def recomputeVlmax (c : Config) (p : Proc) : Proc :=
  let m := vlCapacity c.bankRegs (p.nxprUse.toNat + p.nfprUse.toNat) p.vecbanksCount
  let newMax := min m c.maxLanes
  { p with vlmax := newMax, vl := min p.vl newMax }

/-- setActiveVectorLength (R165). -/
def setVl (requested : BitVec 64) (p : Proc) : Proc :=
  { p with vl := min p.vlmax requested.toNat }

/-- The two writes of START on a lane (R168). -/
def start (target : Word) (p : Proc) : Proc :=
  { p with pc := target, run := true }

/-- WRITE_XPR (R184). -/
def writeX (i : BitVec 5) (v : Word) (p : Proc) : Proc :=
  { p with x := p.x.set i.toNat v i.isLt }

/-- WRITE_FPR (R185). -/
def writeF (i : BitVec 5) (v : Word) (p : Proc) : Proc :=
  { p with f := p.f.set i.toNat v i.isLt }

/-- The constant assignments of RESET, everything but the status write and the recomputed vector length (R231). -/
def resetConstants (c : Config) (p : Proc) : Proc :=
  { p with
    run := false
    x := Vector.replicate 32 0
    f := Vector.replicate 32 0
    pc := c.resetPc
    evec := c.resetEvec
    epc := 0
    badvaddr := 0
    cause := 0
    k0 := 0
    k1 := 0
    cycle := 0
    count := 0
    compare := 0
    pending := 0
    vecbanks := bankMask c
    vecbanksCount := c.nBanks
    nxprUse := 32
    nfprUse := 32
    vl := 0 }

/-- The value RESET gives setStatus: a lane has EF and EV forced on (R231, R232). -/
def resetRaw (c : Config) (p : Proc) : BitVec 32 :=
  if 0 ≤ p.laneIndex then laneResetStatus c.resetStatusRaw else c.resetStatusRaw

/-- reset of one record, without its lanes (R231); a record whose latch is set is left alone (R58). -/
def reset (c : Config) (p : Proc) : Proc :=
  if p.fatal then p
  else (((p.resetConstants c).setStatus c (p.resetRaw c)).setFloatingStatus 0).recomputeVlmax c

/-- A record with every field zero; construction fills it in (R186), and it stands for a lane that does not exist. -/
def blank : Proc where
  id := 0
  laneIndex := -1
  x := Vector.replicate 32 0
  f := Vector.replicate 32 0
  xprlen := .w32
  pc := 0
  epc := 0
  evec := 0
  badvaddr := 0
  cause := 0
  sr := 0
  fsr := 0
  k0 := 0
  k1 := 0
  cycle := 0
  count := 0
  compare := 0
  pending := 0
  run := false
  vecbanks := 0
  vecbanksCount := 0
  nxprUse := 0
  nfprUse := 0
  vlmax := 0
  vl := 0
  mmuVm := false
  mmuS := false
  flushCount := 0
  fatal := false

/-- Construction of one record: identity, then RESET (R186, R230). -/
def construct (c : Config) (index : Int) : Proc :=
  ({ blank with id := c.coreId, laneIndex := index } : Proc).reset c

end Proc

end Sys2Proof.Machine
end

