-- ==== Sys2Proof/Machine/State.lean ====
section
/-! DEFINITION. The machine's whole state, the state right after construction, and the reasons a step can stop. -/

namespace Sys2Proof.Machine

/-- One processor of XCORE (R19), with what its collaborators still have to say to it.

The collaborators are parameters of the model (R10): what they will do is held here as scripts, plain data that every
claim quantifies over. A call beyond the end of its script is answered by a free value of `Config` (log entry 5). -/
structure State where
  /-- The construction-time configuration (R11), constant (R113). -/
  cfg : Config
  /-- The top-level processor's own record (R20). -/
  top : Proc
  /-- `lane[0..MAX_LANES-1]` (R47). -/
  lanes : List Proc
  /-- Who issues the commands that are being run (R95). -/
  ctx : Context
  /-- The command port: the harness's commands not yet run, next one first (R91; log entry 9). -/
  commands : List CommandWord
  /-- Script of the MMU: its answers to the next fetches (R71, R97). -/
  fetches : List FetchWord
  /-- Script of the execute collaborator: what the next handler calls do (R139, R149). -/
  executions : List Execution
  /-- Script of the MMU: its answers to the next bad-address calls (R75). -/
  badAddrs : List Word
  /-- Script of the harness: one entry for each coming iteration boundary of a top-level STEP, the deliveries that
  land there (R152). -/
  deliveries : List (List Delivery)
  /-- Script of the harness: one entry for each coming iteration boundary of a lane's STEP, the kinds delivered to
  that lane there (R152, R155). -/
  laneDeliveries : List (List (BitVec 3))
  /-- The model's own counter: how many free values have been drawn (log entry 5). -/
  draws : Nat
  /-- What the block has emitted, newest first (log entry 10). -/
  events : List Event
  deriving DecidableEq, Repr

/-- Why the machine stops. -/
inductive Fault where
  /-- Raised by STEP, and by nothing else: the script says that a handler never returns, so the STEP hangs (R153, U11: stuck,
  never final). Safe: no claim holds of a state after it, for there is none. -/
  | handlerHang
  deriving DecidableEq, Repr

/-- Why an instruction has no meaning. -/
inductive Refusal where
  /-- Raised by `exec` for an instruction whose meaning is not written yet; no arm does. Safe. -/
  | notModelled (mnemonic : String)
  deriving DecidableEq, Repr

/-- What an operation ends in. -/
abbrev Result := Host.Outcome State Fault Refusal

/-- Construction (R186): the top-level record, `MAX_LANES` lanes, each reset (R230, R233); nothing scripted, nothing
on the command port, the event list empty from here on. -/
def State.construct (c : Config) : State where
  cfg := c
  top := Proc.construct c (-1)
  lanes := (List.range c.maxLanes).map (fun i => Proc.construct c (Int.ofNat i))
  ctx := .idle
  commands := []
  fetches := []
  executions := []
  badAddrs := []
  deliveries := []
  laneDeliveries := []
  draws := 0
  events := []

/-- The machine right after reset: construction ends with a RESET (R60, R186, R230), with the configuration of log
entry 1. -/
def State.reset : State := State.construct Config.standard

end Sys2Proof.Machine
end

