-- ==== Sys2Proof/Machine/Ops.lean ====
section
/-! DEFINITION. The shared operations over State: reaching a record, emitting, raising FATAL, asking a collaborator,
the status write with its MMU calls, taking a trap and returning from one, resetting a processor. -/

namespace Sys2Proof.Machine

namespace State

/-- The record `w` names, if there is one. -/
def proc? (s : State) : Who → Option Proc
  | .top => some s.top
  | .lane i => s.lanes[i]?

/-- The record `w` names; a lane outside the array reads as `Proc.blank`, which no target reaches while the array has
`MAX_LANES` lanes (log entry 13). -/
def get (s : State) (w : Who) : Proc := (s.proc? w).getD Proc.blank

/-- Apply `f` to the record `w` names. -/
def upd (s : State) (w : Who) (f : Proc → Proc) : State :=
  match w with
  | .top => { s with top := f s.top }
  | .lane i => { s with lanes := s.lanes.modify i f }

/-- Emit one event. -/
def emit (s : State) (e : Event) : State := { s with events := e :: s.events }

/-- `FATAL(reason)` on the record `w`: its latch, and for a lane its owner's, are set and nothing else changes
(R58, R226). -/
def raiseFatal (s : State) (w : Who) (reason : FatalReason) : State :=
  ((s.upd w (fun p => { p with fatal := true })).upd .top (fun p => { p with fatal := true })).emit (.fatal w reason)

/-- The record commands are presented to: the processor itself in context IDLE, the record whose handler is running in
context EXEC (R92, R95). -/
def presented (s : State) : Who :=
  match s.ctx with
  | .idle => .top
  | .exec w _ => w

/-- The record a target names (R92): the presented one, or a lane of it if it is the top-level processor and the index
is below `MAX_LANES`; otherwise none, which is `FATAL(bad_target)`. -/
def resolve (s : State) : Target → Option Who
  | .self => some s.presented
  | .lane i => if s.presented = .top ∧ i < s.cfg.maxLanes then some (.lane i) else none

/-- Run `k` on the record a command acts on. A command presented to a fatal record, or addressed to one, changes
nothing (R58; log entry 3); a target that names no record is `FATAL(bad_target)` on the presented record (R92). -/
def onTarget (s : State) (t : Target) (k : Who → State) : State :=
  if (s.get s.presented).fatal then s
  else
    match s.resolve t with
    | none => s.raiseFatal s.presented .badTarget
    | some w => if (s.get w).fatal then s else k w

/-- Count one more free value as drawn. -/
def drawn (s : State) : State := { s with draws := s.draws + 1 }

/-- A `readValue` response, the value an unspecified one (R181, U12). -/
def answerFreely (s : State) : State := (s.emit (.readValue (Config.freeRead s.draws))).drawn

/-- The MMU's answer to `fetchInstruction(pc, SR.EC)` of the record `w` (R71): the next of the script, or a free
value. -/
def fetch (s : State) (w : Who) : FetchResult × State :=
  let s' := s.emit (.fetchInstruction w (s.get w).pc (srEC (s.get w).sr))
  match s'.fetches with
  | r :: rest => (decodeFetch r, { s' with fetches := rest })
  | [] => (decodeFetch (Config.freeFetch s'.draws), s'.drawn)

/-- The MMU's answer to `getLastBadVirtualAddress` for the record `w` (R75): the next of the script, or a free
value. -/
def badAddress (s : State) (w : Who) : Word × State :=
  let s' := s.emit (.getLastBadVirtualAddress w)
  match s'.badAddrs with
  | b :: rest => (b, { s' with badAddrs := rest })
  | [] => (Config.freeBadAddr s'.draws, s'.drawn)

/-- What the handler called next does (R139): the next of the script, or a free value. -/
def execution (s : State) : Execution × State :=
  match s.executions with
  | e :: rest => (e, { s with executions := rest })
  | [] => ({ commands := (Config.freeExecution s.draws).1, outcome := some (Config.freeExecution s.draws).2 }, s.drawn)

/-- The deliveries that land at this boundary of a top-level STEP (R152). -/
def nextDeliveries (s : State) : List Delivery × State :=
  match s.deliveries with
  | ds :: rest => (ds, { s with deliveries := rest })
  | [] => ([], s)

/-- The kinds delivered to a lane at this boundary of its STEP (R152, R155). -/
def nextLaneDeliveries (s : State) : List (BitVec 3) × State :=
  match s.laneDeliveries with
  | ks :: rest => (ks, { s with laneDeliveries := rest })
  | [] => ([], s)

/-- The MMU calls of one setStatus, with the stored status: mode push, then flush (R73, R74, R111). -/
def emitStatusCalls (s : State) (w : Who) (sr : BitVec 32) : State :=
  ((s.emit (.setVirtualMemoryEnabled w (srVM sr))).emit (.setSupervisorMode w (srS sr))).emit
    (.flushTranslationCache w)

/-- setStatus on the record `w`, with its MMU calls (R111). -/
def setStatus (s : State) (w : Who) (value : BitVec 32) : State :=
  (s.upd w (Proc.setStatus s.cfg value)).emitStatusCalls w (value &&& srCap s.cfg)

/-- enterTrap (R122) on the record `w`: an unrecognised cause is `FATAL(bad_cause)` and nothing else (R203);
otherwise the trace event if tracing, the status transition through setStatus, `cause`, `epc`, `pc` and `badvaddr`. -/
def enterTrap (s : State) (w : Who) (tracing : Bool) (c : Cause) : State :=
  if firstBadCause ≤ c.toNat then s.raiseFatal w .badCause
  else
    let p := s.get w
    let s1 := if tracing then s.emit (.traceTrap p.id c p.pc) else s
    let s2 := s1.emitStatusCalls w (trapEntryStatus p.sr &&& srCap s.cfg)
    let r := s2.badAddress w
    r.2.upd w (Proc.enterTrap s.cfg c r.1)

/-- The handler run of a trap return (R212, pseudo-operation TRAP_RETURN of R102) on a record: SET_STATUS of the
computed value, then outcome `CONTINUE epc`. -/
def trapReturn (s : State) (w : Who) : Execution where
  commands := [encode (.setStatus .self (trapReturnStatus (s.get w).sr))]
  outcome := some (encodeOutcome (.continueAt (s.get w).epc))

/-- reset of the record `w` alone (R231), with the MMU calls of its status write (R235); nothing for a fatal record
(R58). -/
def resetOne (s : State) (w : Who) : State :=
  if (s.get w).fatal then s
  else (s.upd w (Proc.reset s.cfg)).emitStatusCalls w ((s.get w).resetRaw s.cfg &&& srCap s.cfg)

/-- reset of the lanes from index `i` on, in index order (R231, R233). -/
def resetLanesFrom (s : State) : Nat → Nat → State
  | _, 0 => s
  | i, k + 1 => (s.resetOne (.lane i)).resetLanesFrom (i + 1) k

/-- reset (R231): a top-level processor's resets every one of its lanes too, a lane's resets that lane alone
(R233). -/
def resetUnit (s : State) (w : Who) : State :=
  if (s.get w).fatal then s
  else
    match w with
    | .top => (s.resetOne .top).resetLanesFrom 0 s.lanes.length
    | .lane i => s.resetOne (.lane i)

/-- A STEP response (R98). -/
def respond (s : State) (e : StepExit) (retired : Nat) : State := s.emit (.stepResponse (encodeStepResponse e retired))

/-- The end of a STEP that leaves the loop by BUDGET or LANE_COMPLETE: the counters and the timer advance by the
retired count, then the response (R146, R98). -/
def closeStep (s : State) (w : Who) (e : StepExit) (retired : Nat) : State :=
  (s.upd w (Proc.closeBatch retired)).respond e retired

/-- An illegal opcode: `FATAL(bad_opcode)` on the record the word was presented to, whatever `t` holds (R100); nothing
if that record is fatal already. -/
def rejectOpcode (s : State) : State :=
  if (s.get s.presented).fatal then s else s.raiseFatal s.presented .badOpcode

end State

/-- Go on with `k` if the machine has not stopped. -/
def andThen (r : Result) (k : State → Result) : Result :=
  match r with
  | .next s => k s
  | .fault e => .fault e
  | .refused e => .refused e

end Sys2Proof.Machine
end

