-- ==== Sys2Proof/Machine/Operands.lean ====
section
/-! DEFINITION. The selectors of READ and WRITE_CR (R99): which state each names, its value as 64 bits, and the six
that WRITE_CR accepts. -/

namespace Sys2Proof.Machine

/-- The state a selector names (R99). -/
inductive Selector where
  | sr | fsr | pc | epc | evec | badvaddr | cause | k0 | k1 | cycle | count | compare | pending | run | xprlen | id
  | laneIndex | vecbanks | vecbanksCount | bankRegs | nxprUse | nfprUse | vlmax | vl | fatal | mmuVm | mmuS
  | x (i : BitVec 5)
  | f (i : BitVec 5)
  deriving DecidableEq, Repr

/-- R99's table, read from the selector byte; none for a byte that is not in it. -/
def decodeSelector (sel : BitVec 8) : Option Selector :=
  match sel.toNat with
  | 0x00 => some .sr
  | 0x01 => some .fsr
  | 0x02 => some .pc
  | 0x03 => some .epc
  | 0x04 => some .evec
  | 0x05 => some .badvaddr
  | 0x06 => some .cause
  | 0x07 => some .k0
  | 0x08 => some .k1
  | 0x09 => some .cycle
  | 0x0A => some .count
  | 0x0B => some .compare
  | 0x0C => some .pending
  | 0x0D => some .run
  | 0x0E => some .xprlen
  | 0x0F => some .id
  | 0x10 => some .laneIndex
  | 0x11 => some .vecbanks
  | 0x12 => some .vecbanksCount
  | 0x13 => some .bankRegs
  | 0x14 => some .nxprUse
  | 0x15 => some .nfprUse
  | 0x16 => some .vlmax
  | 0x17 => some .vl
  | 0x18 => some .fatal
  | 0x19 => some .mmuVm
  | 0x1A => some .mmuS
  | n =>
    if 0x20 ≤ n ∧ n < 0x40 then some (.x (BitVec.ofNat 5 (n - 0x20)))
    else if 0x40 ≤ n ∧ n < 0x60 then some (.f (BitVec.ofNat 5 (n - 0x40)))
    else none

/-- The 64-bit value READ answers for a selector: zero-extended, `lane_index` sign-extended (R99, R181). -/
def readSelector (c : Config) (p : Proc) : Selector → Word
  | .sr => p.sr.setWidth 64
  | .fsr => p.fsr.setWidth 64
  | .pc => p.pc
  | .epc => p.epc
  | .evec => p.evec
  | .badvaddr => p.badvaddr
  | .cause => p.cause.setWidth 64
  | .k0 => p.k0
  | .k1 => p.k1
  | .cycle => p.cycle
  | .count => p.count.setWidth 64
  | .compare => p.compare.setWidth 64
  | .pending => p.pending.setWidth 64
  | .run => (BitVec.ofBool p.run).setWidth 64
  | .xprlen => BitVec.ofNat 64 p.xprlen.bits
  | .id => p.id.setWidth 64
  | .laneIndex => BitVec.ofInt 64 p.laneIndex
  | .vecbanks => p.vecbanks.setWidth 64
  | .vecbanksCount => BitVec.ofNat 64 p.vecbanksCount
  | .bankRegs => BitVec.ofNat 64 c.bankRegs
  | .nxprUse => p.nxprUse.setWidth 64
  | .nfprUse => p.nfprUse.setWidth 64
  | .vlmax => BitVec.ofNat 64 p.vlmax
  | .vl => BitVec.ofNat 64 p.vl
  | .fatal => (BitVec.ofBool p.fatal).setWidth 64
  | .mmuVm => (BitVec.ofBool p.mmuVm).setWidth 64
  | .mmuS => (BitVec.ofBool p.mmuS).setWidth 64
  | .x i => p.x[i.toNat]'i.isLt
  | .f i => p.f[i.toNat]'i.isLt

/-- The write of WRITE_CR to a selector that has W in R99's table; none for every other selector (R182). A write of
`compare` also clears the timer's pending bit (R183). -/
def writeSelector (sel : Selector) (v : Word) (p : Proc) : Option Proc :=
  match sel with
  | .epc => some { p with epc := v }
  | .evec => some { p with evec := v }
  | .k0 => some { p with k0 := v }
  | .k1 => some { p with k1 := v }
  | .count => some { p with count := v.setWidth 32 }
  | .compare => some { p with compare := v.setWidth 32, pending := p.pending &&& ~~~irqBit timerIrq }
  | _ => none

end Sys2Proof.Machine
end

