-- ==== Sys2Proof/Machine/AccessUnit.lean ====
section
/-! DEFINITION. The state access commands READ, WRITE_CR, WRITE_XPR and WRITE_FPR (45_access.md). -/

namespace Sys2Proof.Machine

/-- READ of the record `w`, its latch not set: the value, or `FATAL(bad_selector)` on `w` (R181). -/
def readAt (s : State) (w : Who) (sel : BitVec 8) : State :=
  match decodeSelector sel with
  | some r => s.emit (.readValue (readSelector s.cfg (s.get w) r))
  | none => s.raiseFatal w .badSelector

/-- READ of the record `w` while its latch or the presented record's is set: `fatal` answers, every other selector
reads as an unspecified value (R99, R181, U12; log entry 6). -/
def readWhileFatal (s : State) (w : Who) (sel : BitVec 8) : State :=
  match decodeSelector sel with
  | some .fatal => s.emit (.readValue (readSelector s.cfg (s.get w) .fatal))
  | _ => s.answerFreely

/-- READ (R181). -/
def execRead (t : Target) (sel : BitVec 8) (s : State) : Result :=
  .next <|
    match s.resolve t with
    | some w =>
      if (s.get s.presented).fatal || (s.get w).fatal then readWhileFatal s w sel else readAt s w sel
    | none =>
      if (s.get s.presented).fatal then s.answerFreely else s.raiseFatal s.presented .badTarget

/-- The write of WRITE_CR on the record `w`, or `FATAL(bad_selector)` on it (R182). -/
def writeCrAt (s : State) (w : Who) (sel : BitVec 8) (v : Word) : State :=
  match (decodeSelector sel).bind (fun r => writeSelector r v (s.get w)) with
  | some p => s.upd w (fun _ => p)
  | none => s.raiseFatal w .badSelector

/-- WRITE_CR (R182). -/
def execWriteCr (t : Target) (sel : BitVec 8) (value : BitVec 64) (s : State) : Result :=
  .next (s.onTarget t fun w => writeCrAt s w sel value)

/-- WRITE_XPR (R184). -/
def execWriteXpr (t : Target) (index : BitVec 5) (value : BitVec 64) (s : State) : Result :=
  .next (s.onTarget t fun w => s.upd w (Proc.writeX index value))

/-- WRITE_FPR (R185). -/
def execWriteFpr (t : Target) (index : BitVec 5) (value : BitVec 64) (s : State) : Result :=
  .next (s.onTarget t fun w => s.upd w (Proc.writeF index value))

end Sys2Proof.Machine
end

