-- ==== Sys2Proof/Machine/ResetUnit.lean ====
section
/-! DEFINITION. The command RESET (70_reset_and_hazards.md). -/

namespace Sys2Proof.Machine

/-- RESET (R231). From the handler of a record that is inside a STEP, addressed to that record, it is
`FATAL(reentrant)` (R95). -/
def execReset (t : Target) (s : State) : Result :=
  .next (s.onTarget t fun w =>
    match s.ctx, t with
    | .exec who _, .self => s.raiseFatal who .reentrant
    | _, _ => s.resetUnit w)

end Sys2Proof.Machine
end

