-- ==== Sys2Proof/Machine/StatusUnit.lean ====
section
/-! DEFINITION. The Status State Machine's commands SET_STATUS and SET_FSTATUS (40_status.md). -/

namespace Sys2Proof.Machine

/-- SET_STATUS (R111). -/
def execSetStatus (t : Target) (value : BitVec 32) (s : State) : Result :=
  .next (s.onTarget t fun w => s.setStatus w value)

/-- SET_FSTATUS (R114). -/
def execSetFstatus (t : Target) (value : BitVec 32) (s : State) : Result :=
  .next (s.onTarget t fun w => s.upd w (Proc.setFloatingStatus value))

end Sys2Proof.Machine
end

