-- ==== Sys2Proof/Machine/TrapUnit.lean ====
section
/-! DEFINITION. The Interrupt/Trap Controller's commands DELIVER_IRQ and CLEAR_PENDING (41_interrupt_trap.md), and the
deliveries that land at an iteration boundary of a STEP (R152). -/

namespace Sys2Proof.Machine

/-- deliverExternalInterrupt, addressed (R92, R124). -/
def deliverTo (t : Target) (kind : BitVec 3) (s : State) : State :=
  s.onTarget t fun w => s.upd w (Proc.deliver kind)

/-- deliverExternalInterrupt on the record `w`; nothing for a fatal record (R58, R124). -/
def deliverUnit (w : Who) (kind : BitVec 3) (s : State) : State :=
  if (s.get w).fatal then s else s.upd w (Proc.deliver kind)

/-- DELIVER_IRQ (R124). -/
def execDeliverIrq (t : Target) (kind : BitVec 3) (s : State) : Result := .next (deliverTo t kind s)

/-- CLEAR_PENDING (R126). -/
def execClearPending (t : Target) (mask : BitVec 8) (s : State) : Result :=
  .next (s.onTarget t fun w => s.upd w (Proc.clearPending mask))

/-- The harness's deliveries that land before an iteration of the record `w` (R152; log entry 7): a STEP of the
top-level processor admits any DELIVER_IRQ, a lane's STEP those to that lane. -/
def landDeliveries (w : Who) (s : State) : State :=
  match w with
  | .top =>
    let r := s.nextDeliveries
    r.1.foldl (fun s' d => deliverTo d.target d.kind s') r.2
  | .lane i =>
    let r := s.nextLaneDeliveries
    r.1.foldl (fun s' k => deliverUnit (.lane i) k s') r.2

end Sys2Proof.Machine
end

