-- ==== Sys2Proof/Machine/VectorUnit.lean ====
section
/-! DEFINITION. The Vector Lane Manager's commands SET_VREGS, SET_BANKS, RECOMPUTE_VLMAX, SET_VL and START
(43_vector_lane.md). -/

namespace Sys2Proof.Machine

/-- SET_VREGS (R161). -/
def execSetVregs (t : Target) (nxpr nfpr : BitVec 6) (s : State) : Result :=
  .next (s.onTarget t fun w => s.upd w (Proc.setVregs nxpr nfpr))

/-- SET_BANKS (R162). -/
def execSetBanks (t : Target) (mask : BitVec 16) (s : State) : Result :=
  .next (s.onTarget t fun w => s.upd w (Proc.setBanks s.cfg mask))

/-- RECOMPUTE_VLMAX (R163). -/
def execRecomputeVlmax (t : Target) (s : State) : Result :=
  .next (s.onTarget t fun w => s.upd w (Proc.recomputeVlmax s.cfg))

/-- SET_VL (R165). -/
def execSetVl (t : Target) (requested : BitVec 64) (s : State) : Result :=
  .next (s.onTarget t fun w => s.upd w (Proc.setVl requested))

/-- START (R168): a target that is not a lane is `FATAL(bad_target)`. -/
def execStart (t : Target) (target : BitVec 64) (s : State) : Result :=
  .next (s.onTarget t fun w =>
    match t with
    | .self => s.raiseFatal s.presented .badTarget
    | .lane _ => s.upd w (Proc.start target))

end Sys2Proof.Machine
end

