-- ==== Sys2Proof/Machine/LoopUnit.lean ====
section
/-! DEFINITION. The Execution Loop and its command STEP (42_execution_loop.md). The loop is written once over the
command interpreter of the handlers it calls: a lane's handler can issue no STEP that runs (R95, R171), so a lane's loop
needs none, and the top-level loop's interpreter runs lane loops (R155). -/

namespace Sys2Proof.Machine

/-- Run a decoded command, with the given meaning for STEP; the other fourteen have the meanings `exec` calls. -/
def runInstr (stepMeaning : Target → Bool → BitVec 64 → State → Result) (i : Instr) (s : State) : Result :=
  match i with
  | .reset t => execReset t s
  | .step t tr n => stepMeaning t tr n s
  | .deliverIrq t k => execDeliverIrq t k s
  | .read t sel => execRead t sel s
  | .setStatus t v => execSetStatus t v s
  | .setFstatus t v => execSetFstatus t v s
  | .writeCr t sel v => execWriteCr t sel v s
  | .clearPending t m => execClearPending t m s
  | .writeXpr t i v => execWriteXpr t i v s
  | .writeFpr t i v => execWriteFpr t i v s
  | .setVregs t x f => execSetVregs t x f s
  | .setBanks t m => execSetBanks t m s
  | .recomputeVlmax t => execRecomputeVlmax t s
  | .setVl t v => execSetVl t v s
  | .start t v => execStart t v s

/-- Run one command word a handler issues; an illegal one is `FATAL(bad_opcode)` (R100). -/
def runWord (stepMeaning : Target → Bool → BitVec 64 → State → Result) (w : CommandWord) (s : State) : Result :=
  match decode w with
  | .ok i => runInstr stepMeaning i s
  | .error _ => .next s.rejectOpcode

/-- Run the commands a handler issues, each at once and in the order issued (R149). Commands after a FATAL are
presented to a fatal record and change nothing (R58). -/
def runCommands (stepMeaning : Target → Bool → BitVec 64 → State → Result) : List CommandWord → State → Result
  | [], s => .next s
  | w :: ws, s => andThen (runWord stepMeaning w s) (runCommands stepMeaning ws)

/-- How one iteration of the loop ended. -/
inductive Iteration where
  /-- One instruction retired: completed or trapped (R147). -/
  | retired (s : State)
  /-- LANE_COMPLETE from a lane (R142). -/
  | laneComplete (s : State)
  /-- HALT, the reset done (R143). -/
  | halted (s : State)
  /-- The record's latch is set (R58, R136). -/
  | fatal (s : State)
  /-- The machine stopped. -/
  | stopped (e : Fault)
  /-- An instruction without a meaning was issued. -/
  | refused (e : Refusal)

/-- `trap(c)` of R136: enterTrap, then one retired instruction unless the cause was unrecognised. -/
def trapIteration (w : Who) (tracing : Bool) (c : Cause) (s : State) : Iteration :=
  let s' := s.enterTrap w tracing c
  if (s'.get w).fatal then .fatal s' else .retired s'

/-- What the loop does with the handler's outcome (R139, R140, R142, R143). -/
def finishIteration (w : Who) (tracing : Bool) (o : HandlerOutcome) (s : State) : Iteration :=
  match o with
  | .continueAt npc => .retired (s.upd w (fun p => { p with pc := npc }))
  | .trap c => trapIteration w tracing c s
  | .laneComplete =>
    if (s.get w).laneIndex = -1 then .fatal (s.raiseFatal w .laneCompleteOnTop) else .laneComplete s
  | .halt => .halted (s.resetUnit w)

/-- The execute phase (R139, R149): the handler is called, issues its commands in context EXEC, and returns; a handler
that never returns stops the machine (R153). -/
def executePhase (stepMeaning : Target → Bool → BitVec 64 → State → Result) (w : Who) (tracing : Bool)
    (insn : InsnWord) (h : HandlerToken) (s : State) : Iteration :=
  let r := (s.emit (.callHandler w h insn (s.get w).pc)).execution
  match runCommands stepMeaning r.1.commands { r.2 with ctx := .exec w tracing } with
  | .next s' =>
    match r.1.outcome with
    | none => .stopped .handlerHang
    | some o =>
      let s'' := { s' with ctx := s.ctx }
      if (s''.get w).fatal then .fatal s'' else finishIteration w tracing (decodeOutcome o) s''
  | .fault e => .stopped e
  | .refused e => .refused e

/-- One iteration of the loop of R136: deliveries that land here, interrupt check, fetch, trace, execute. -/
def iterate (stepMeaning : Target → Bool → BitVec 64 → State → Result) (w : Who) (tracing : Bool) (s : State) :
    Iteration :=
  let s := landDeliveries w s
  if (s.get w).fatal then .fatal s
  else
    match takeInterruptIfAny (s.get w) with
    | some c => trapIteration w tracing c s
    | none =>
      let r := s.fetch w
      match r.1 with
      | .fetchFault c => trapIteration w tracing c r.2
      | .fetched insn h =>
        let s' := if tracing then r.2.emit (.traceInsn (r.2.get w).id (r.2.get w).pc insn) else r.2
        executePhase stepMeaning w tracing insn h s'

/-- The loop of R136 with `k` of the budget left and `retired` instructions behind it (R144). -/
def loop (stepMeaning : Target → Bool → BitVec 64 → State → Result) (w : Who) (tracing : Bool) :
    (k retired : Nat) → State → Result
  | 0, retired, s => .next (s.closeStep w .budget retired)
  | k + 1, retired, s =>
    match iterate stepMeaning w tracing s with
    | .retired s' => loop stepMeaning w tracing k (retired + 1) s'
    | .laneComplete s' => .next (s'.closeStep w .laneComplete retired)
    | .halted s' => .next (s'.respond .halted retired)
    | .fatal s' => .next (s'.respond .fatal retired)
    | .stopped e => .fault e
    | .refused e => .refused e

/-- step(n, tracing) on the record `w` (R136): nothing while fatal, nothing while parked (R145). -/
def stepUnit (stepMeaning : Target → Bool → BitVec 64 → State → Result) (w : Who) (tracing : Bool) (n : Nat)
    (s : State) : Result :=
  if (s.get w).fatal then .next (s.respond .fatal 0)
  else if (s.get w).run then loop stepMeaning w tracing n 0 s
  else .next (s.respond .parked 0)

/-- A STEP that its context or its target does not allow: `FATAL(reason)` on the presented record, unless it is fatal
already, and the response FATAL (R92, R95; log entry 8). -/
def refuseStep (reason : FatalReason) (s : State) : Result :=
  if (s.get s.presented).fatal then .next (s.respond .fatal 0)
  else .next ((s.raiseFatal s.presented reason).respond .fatal 0)

/-- STEP presented to a lane, which only the lane's own handler can do: to itself it is re-entrant (R95), to a lane of
it there is no such target (R171). -/
def stepFromLane (t : Target) (_tracing : Bool) (_n : BitVec 64) (s : State) : Result :=
  match t with
  | .self => refuseStep .reentrant s
  | .lane _ => refuseStep .badTarget s

/-- STEP of lane `i`, presented to the top-level processor (R155); while that is fatal nothing runs (log entry 3). -/
def stepLane (i : Nat) (tracing : Bool) (n : BitVec 64) (s : State) : Result :=
  if (s.get s.presented).fatal then .next (s.respond .fatal 0)
  else if i < s.cfg.maxLanes then stepUnit stepFromLane (.lane i) tracing n.toNat s
  else refuseStep .badTarget s

/-- STEP presented to the top-level processor by its own handler: to itself it is re-entrant (R95), to a lane it runs
the lane's whole STEP, with the owner's tracing flag (R155). -/
def stepFromTop (ownerTracing : Bool) (t : Target) (n : BitVec 64) (s : State) : Result :=
  match t with
  | .self => refuseStep .reentrant s
  | .lane i => stepLane i ownerTracing n s

/-- STEP presented by the harness. -/
def stepFromHarness (t : Target) (tracing : Bool) (n : BitVec 64) (s : State) : Result :=
  match t with
  | .self => stepUnit (fun t _ m => stepFromTop tracing t m) .top tracing n.toNat s
  | .lane i => stepLane i tracing n s

/-- STEP (R136), in the context the command is issued in (R95). -/
def execStep (t : Target) (tracing : Bool) (n : BitVec 64) (s : State) : Result :=
  match s.ctx with
  | .idle => stepFromHarness t tracing n s
  | .exec .top ownerTracing => stepFromTop ownerTracing t n s
  | .exec (.lane _) _ => stepFromLane t tracing n s

end Sys2Proof.Machine
end

