-- ==== Sys2Proof/Machine/Dispatch.lean ====
section
/-! DEFINITION. The meaning of every command: one arm per constructor of `Instr`. -/

namespace Sys2Proof.Machine

/-- Run one command in the context `s.ctx` says it is issued in. -/
def exec (i : Instr) (s : State) : Host.Outcome State Fault Refusal :=
  match i with
  | .reset t => Sys2Proof.Machine.execReset t s
  | .step t tracing n => Sys2Proof.Machine.execStep t tracing n s
  | .deliverIrq t kind => Sys2Proof.Machine.execDeliverIrq t kind s
  | .read t sel => Sys2Proof.Machine.execRead t sel s
  | .setStatus t value => Sys2Proof.Machine.execSetStatus t value s
  | .setFstatus t value => Sys2Proof.Machine.execSetFstatus t value s
  | .writeCr t sel value => Sys2Proof.Machine.execWriteCr t sel value s
  | .clearPending t mask => Sys2Proof.Machine.execClearPending t mask s
  | .writeXpr t index value => Sys2Proof.Machine.execWriteXpr t index value s
  | .writeFpr t index value => Sys2Proof.Machine.execWriteFpr t index value s
  | .setVregs t nxpr nfpr => Sys2Proof.Machine.execSetVregs t nxpr nfpr s
  | .setBanks t mask => Sys2Proof.Machine.execSetBanks t mask s
  | .recomputeVlmax t => Sys2Proof.Machine.execRecomputeVlmax t s
  | .setVl t requested => Sys2Proof.Machine.execSetVl t requested s
  | .start t target => Sys2Proof.Machine.execStart t target s

end Sys2Proof.Machine
end

