-- ==== Sys2Proof/Machine/Step.lean ====
section
/-! DEFINITION. One step of the machine: the command port's next command is taken, decoded and run (R15, R19). -/

namespace Sys2Proof.Machine

/-- Take the next command off the port and run it; an illegal word is `FATAL(bad_opcode)` (R100); with nothing on the
port nothing happens (R8; log entry 9). -/
def step (s : State) : Host.Outcome State Fault Refusal :=
  match s.commands with
  | [] => .next s
  | w :: rest =>
    match decode w with
    | .ok i => exec i { s with commands := rest }
    | .error _ => .next (State.rejectOpcode { s with commands := rest })

/-- Put the word at the head of the command port, where `step` takes its next command (log entry 9). -/
def State.withFetchWord (s : State) (nbits w : Nat) : State :=
  { s with commands := tableWord nbits w :: s.commands }

end Sys2Proof.Machine
end

