-- ==== Sys2Proof/Safety.lean ====
section
/-! DEFINITION. The terms claims are stated in: the latch-free states of a safe run, the invariants of R59, the states
in which a command reaches a record, and what stays the same around it. -/

namespace Sys2Proof.Machine

namespace State

/-- No latch is set. R58: "the state is never final and no claim holds of it" once one is; a safe run is one all of
whose states are latch-free (log entry 2). -/
def NoFatal (s : State) : Prop := s.top.fatal = false ∧ ∀ p ∈ s.lanes, p.fatal = false

/-- A command with target `t`, presented now, acts on the record `w`: the presented record and `w` are not fatal, and
`t` names `w`, which exists (R58, R92). -/
structure Accepts (s : State) (t : Target) (w : Who) : Prop where
  presented_alive : (s.get s.presented).fatal = false
  resolves : s.resolve t = some w
  present : (s.proc? w).isSome = true
  alive : (s.get w).fatal = false

/-- `s` with the record `w` replaced by `p`, and nothing else changed. -/
def withProc (s : State) (w : Who) (p : Proc) : State := s.upd w (fun _ => p)

/-- `s` with these events emitted, oldest first in the list, and nothing else changed. -/
def emitAll (s : State) (es : List Event) : State := { s with events := es.reverse ++ s.events }

/-- `s` with the latch of `w`, and its owner's, set by `FATAL(reason)`, and nothing else changed but the event list
(R58). -/
def latched (s : State) (w : Who) (reason : FatalReason) : State :=
  match w with
  | .top => { s with top := { s.top with fatal := true }, events := .fatal w reason :: s.events }
  | .lane i =>
    { s with
      top := { s.top with fatal := true }
      lanes := s.lanes.modify i (fun p => { p with fatal := true })
      events := .fatal w reason :: s.events }

/-- Both states hold the same machine: configuration and every record. What may differ is what stands around it
(context, command port, scripts, draws, events). -/
structure SameMachine (s s' : State) : Prop where
  cfg : s'.cfg = s.cfg
  top : s'.top = s.top
  lanes : s'.lanes = s.lanes

/-- Nothing arrives at the coming iteration boundaries and the record `w`, which runs, has no interrupt to take
(R137, R152). -/
structure Quiet (s : State) (w : Who) : Prop where
  deliveries : s.deliveries = []
  lane_deliveries : s.laneDeliveries = []
  running : (s.get w).run = true
  no_interrupt : srET (s.get w).sr = false ∨ (s.get w).pending &&& srIM (s.get w).sr = 0

/-- The commands `is`, run one after the other at once and in this order, lead from `s` to `s'` (R149). -/
def Issues : List Instr → State → State → Prop
  | [], s, s' => s' = s
  | i :: is, s, s' => ∃ s1, exec i s = .next s1 ∧ Issues is s1 s'

/-- `s` where the handler of `w` has just been called for an instruction: the fetch at `pc` with `SR.EC`, the trace event
if tracing (of a lane that the harness steps: by the flag of its command, log entry 18), the handler call with its
arguments (R71, R139, R141). -/
def atHandler (s : State) (w : Who) (tracing : Bool) (insn : InsnWord) (h : HandlerToken) : State :=
  ({ s with ctx := .exec w tracing }).emitAll
    ([Event.fetchInstruction w (s.get w).pc (srEC (s.get w).sr)] ++
      (if tracing then [Event.traceInsn (s.get w).id (s.get w).pc insn] else []) ++
      [Event.callHandler w h insn (s.get w).pc])

/-- By the collaborators' scripts, the next instruction of `w` is fetched without a fault, and its handler issues
commands, which lead to `s1`, and returns `o` (R139, R149). -/
def Executes (s : State) (w : Who) (tracing : Bool) (s1 : State) (o : HandlerOutcome) : Prop :=
  ∃ (fw : FetchWord) (fs : List FetchWord) (insn : InsnWord) (h : HandlerToken) (ws : List CommandWord)
    (is : List Instr) (ow : OutcomeWord) (es : List Execution),
    s.fetches = fw :: fs ∧ decodeFetch fw = .fetched insn h ∧
    s.executions = { commands := ws, outcome := some ow } :: es ∧ decodeOutcome ow = o ∧
    ws.map decode = is.map .ok ∧
    Issues is ({ s with fetches := fs, executions := es }.atHandler w tracing insn h) s1

/-- The harness's commands that land at the coming iteration boundary of a STEP of `w` (R152; log entry 7). -/
def arriving (s : State) : Who → List Instr
  | .top => (s.deliveries.headD []).map fun d => .deliverIrq d.target d.kind
  | .lane i => (s.laneDeliveries.headD []).map fun k => .deliverIrq (.lane i) k

/-- `s` with the coming boundary's deliveries taken off their script. -/
def pastArrivals (s : State) : Who → State
  | .top => { s with deliveries := s.deliveries.tail }
  | .lane _ => { s with laneDeliveries := s.laneDeliveries.tail }

/-- No handler of the script hangs (R153). -/
def NoScriptedHang (s : State) : Prop := ∀ e ∈ s.executions, e.outcome.isSome = true

end State

/-- The invariants of R59 for one record, with its identity (R21), the width of its bank mask (R41) and the codes its
cause register can hold (R201, R203). -/
structure Proc.Inv (c : Config) (index : Int) (p : Proc) : Prop where
  id : p.id = c.coreId
  lane_index : p.laneIndex = index
  sr_canonical : p.sr &&& ~~~srCap c = 0
  fsr_canonical : p.fsr &&& ~~~fsrValid = 0
  xprlen : p.xprlen = xprlenOf p.sr
  mmu_vm : p.mmuVm = srVM p.sr
  mmu_s : p.mmuS = srS p.sr
  vl_le : p.vl ≤ p.vlmax
  vlmax_le : p.vlmax ≤ c.maxLanes
  vecbanks_count : p.vecbanksCount = popcount p.vecbanks
  vecbanks_width : p.vecbanks &&& ~~~bankMask c = 0
  cause_recognised : p.cause.toNat < firstBadCause

/-- The invariant of the whole processor: the configuration in R11's ranges, a lane array of `MAX_LANES` (R47), every
record's own invariant, and a fatal lane's owner fatal (R58). -/
structure State.Inv (s : State) : Prop where
  cfg_wf : s.cfg.wf = true
  lanes_length : s.lanes.length = s.cfg.maxLanes
  top : s.top.Inv s.cfg (-1)
  lanes : ∀ (i : Nat) (p : Proc), s.lanes[i]? = some p → p.Inv s.cfg (Int.ofNat i)
  latch : ∀ p ∈ s.lanes, p.fatal = true → s.top.fatal = true

/-- R60's table: the record a RESET leaves, `id`, `lane_index` and the latch as they were, one flush more. -/
def Proc.atReset (c : Config) (p : Proc) : Proc :=
  let s := (if 0 ≤ p.laneIndex then c.resetStatusRaw ||| 0x00000006 else c.resetStatusRaw) &&& srCap c
  { id := p.id
    laneIndex := p.laneIndex
    x := Vector.replicate 32 0
    f := Vector.replicate 32 0
    xprlen := if (if srS s then srSX s else srUX s) then .w64 else .w32
    pc := c.resetPc
    epc := 0
    evec := c.resetEvec
    badvaddr := 0
    cause := 0
    sr := s
    fsr := 0
    k0 := 0
    k1 := 0
    cycle := 0
    count := 0
    compare := 0
    pending := 0
    run := false
    vecbanks := BitVec.ofNat 16 (2 ^ c.nBanks - 1)
    vecbanksCount := c.nBanks
    nxprUse := 32
    nfprUse := 32
    vlmax := min ((c.bankRegs / 63) * c.nBanks) c.maxLanes
    vl := 0
    mmuVm := srVM s
    mmuS := srS s
    flushCount := p.flushCount + 1
    fatal := p.fatal }

/-- The MMU calls of one setStatus that stores `sr`, in order (R73, R74). -/
def statusCalls (w : Who) (sr : BitVec 32) : List Event :=
  [.setVirtualMemoryEnabled w (srVM sr), .setSupervisorMode w (srS sr), .flushTranslationCache w]

/-- The bits of `a` and of `v` that the operation of an opcode names (R93); R94 says the others are ignored. -/
def namedOperandBits (op : BitVec 8) : BitVec 16 × BitVec 64 :=
  match op.toNat with
  | 0x02 => (0x0001, 0xFFFFFFFFFFFFFFFF)
  | 0x03 => (0x0007, 0)
  | 0x04 => (0x00FF, 0)
  | 0x10 => (0, 0x00000000FFFFFFFF)
  | 0x11 => (0, 0x00000000FFFFFFFF)
  | 0x20 => (0x00FF, 0xFFFFFFFFFFFFFFFF)
  | 0x21 => (0x00FF, 0)
  | 0x30 => (0x001F, 0xFFFFFFFFFFFFFFFF)
  | 0x31 => (0x001F, 0xFFFFFFFFFFFFFFFF)
  | 0x40 => (0x3F3F, 0)
  | 0x41 => (0xFFFF, 0)
  | 0x43 => (0, 0xFFFFFFFFFFFFFFFF)
  | 0x44 => (0, 0xFFFFFFFFFFFFFFFF)
  | _ => (0, 0)

end Sys2Proof.Machine
end

