-- ==== Sys2Proof/Certificates/Slice0/Obligations.lean ====
section
/-! DEFINITION. The statements for the provers. A statement of an operation's result is an equality of whole states: what
it does not write is unchanged in it. `State.withProc`, `State.emitAll` and `State.latched` (Safety.lean) change nothing
but what they name. -/

open Sys2Proof Sys2Proof.Machine

/-! ### Encodings -/

/-- R91, R93: no bit of an encoding is dropped, for every command and every operand value its fields hold. -/
def Obligations.DecodeEncodeRoundTrip : Prop :=
  ∀ i : Instr, i.wf = true → decode (encode i) = .ok i

/-- R91 to R93: what a word decodes to can be encoded, under the word's own opcode. -/
def Obligations.DecodedCommandIsEncodable : Prop :=
  ∀ (w : CommandWord) (i : Instr), decode w = .ok i → i.wf = true ∧ i.opcode = fieldOp w

/-- R93, R100: the decoder rejects, by name, exactly the opcodes that are in no row. -/
def Obligations.UnlistedOpcodesRejected : Prop :=
  ∀ w : CommandWord,
    fieldOp w ∉ ([0x01, 0x02, 0x03, 0x04, 0x10, 0x11, 0x20, 0x21, 0x30, 0x31, 0x40, 0x41, 0x42, 0x43, 0x44] :
      List (BitVec 8)) ↔ decode w = .error (.badOpcode (fieldOp w))

/-- R94: operand bits an operation does not name are ignored. -/
def Obligations.UnnamedOperandBitsIgnored : Prop :=
  ∀ w w' : CommandWord,
    fieldOp w = fieldOp w' → fieldT w = fieldT w' →
    fieldA w &&& (namedOperandBits (fieldOp w)).1 = fieldA w' &&& (namedOperandBits (fieldOp w)).1 →
    fieldV w &&& (namedOperandBits (fieldOp w)).2 = fieldV w' &&& (namedOperandBits (fieldOp w)).2 →
    decode w = decode w'

/-- R103: the worked command and outcome words. -/
def Obligations.WorkedEncodingsDecode : Prop :=
  decode 0x0000000000000000FFFF000001 = .ok (.reset .self) ∧
  decode 0x0000000000000001FFFF000002 = .ok (.step .self false 1) ∧
  decode 0x0000000000000004FFFF000102 = .ok (.step .self true 4) ∧
  decode 0x0000000000000000FFFF000503 = .ok (.deliverIrq .self 5) ∧
  decode 0x0000000000000000FFFF000204 = .ok (.read .self 0x02) ∧
  decode 0x000000000000FFA1FFFF000010 = .ok (.setStatus .self 0xFFA1) ∧
  decode 0x000000000000000FFFFF000B20 = .ok (.writeCr .self 0x0B 15) ∧
  decode 0x0000000000000000FFFF008021 = .ok (.clearPending .self 0x80) ∧
  decode 0x0000000000000000FFFF000440 = .ok (.setVregs .self 4 0) ∧
  decode 0x0000000000000000FFFF202040 = .ok (.setVregs .self 32 32) ∧
  decode 0x00000000000030000000000044 = .ok (.start (.lane 0) 0x3000) ∧
  decode 0x00000000000000640003000002 = .ok (.step (.lane 3) false 100) ∧
  encodeOutcome (.continueAt 0x1004) = 0x4010 ∧ decodeOutcome 0x4010 = .continueAt 0x1004 ∧
  encodeOutcome (.trap 6) = 0x19 ∧ decodeOutcome 0x19 = .trap 6 ∧
  encodeOutcome .laneComplete = 0x2 ∧ decodeOutcome 0x2 = .laneComplete ∧
  encodeOutcome .halt = 0x3 ∧ decodeOutcome 0x3 = .halt

/-- R96, R97: outcome words and fetch responses read back as what was encoded, each from the fields the rule names. R98: a
STEP response holds the exit code in bits 2:0 and the retired count in bits 66:3. -/
def Obligations.CollaboratorWordsRoundTrip : Prop :=
  (∀ o : HandlerOutcome, decodeOutcome (encodeOutcome o) = o) ∧
  (∀ r : FetchResult, decodeFetch (encodeFetch r) = r) ∧
  (∀ w : OutcomeWord,
    (w.extractLsb' 0 2 = 0 → decodeOutcome w = .continueAt (w.extractLsb' 2 64)) ∧
    (w.extractLsb' 0 2 = 1 → decodeOutcome w = .trap (w.extractLsb' 2 5)) ∧
    (w.extractLsb' 0 2 = 2 → decodeOutcome w = .laneComplete) ∧
    (w.extractLsb' 0 2 = 3 → decodeOutcome w = .halt)) ∧
  (∀ w : FetchWord,
    (w.getLsbD 0 = false → decodeFetch w = .fetched (w.extractLsb' 1 32) (w.extractLsb' 33 16)) ∧
    (w.getLsbD 0 = true → decodeFetch w = .fetchFault (w.extractLsb' 1 5))) ∧
  ∀ n : Nat, n < 2 ^ 64 →
    (∀ e : StepExit, ((encodeStepResponse e n).extractLsb' 3 64).toNat = n) ∧
    (encodeStepResponse .budget n).extractLsb' 0 3 = 0 ∧
    (encodeStepResponse .laneComplete n).extractLsb' 0 3 = 1 ∧
    (encodeStepResponse .halted n).extractLsb' 0 3 = 2 ∧
    (encodeStepResponse .parked n).extractLsb' 0 3 = 3 ∧
    (encodeStepResponse .fatal n).extractLsb' 0 3 = 4

/-! ### The step -/

/-- R15, R19, R93: the next command on the port is taken off it, decoded, and run by `exec` at that state. -/
def Obligations.StepRunsDecodedCommand : Prop :=
  ∀ (s : State) (w : CommandWord) (rest : List CommandWord) (i : Instr),
    s.commands = w :: rest → decode w = .ok i → Machine.step s = exec i { s with commands := rest }

/-- R100: a word with an unlisted opcode sets the latch of the processor it was presented to, and changes nothing
else. -/
def Obligations.IllegalCommandIsFatal : Prop :=
  ∀ (s : State) (w : CommandWord) (rest : List CommandWord) (op : BitVec 8),
    s.commands = w :: rest → decode w = .error (.badOpcode op) → (s.get s.presented).fatal = false →
    Machine.step s = .next (State.latched { s with commands := rest } s.presented .badOpcode)

/-- R149: a command a handler issues has the meaning `exec` gives it in that handler's context, for the top-level
processor's handler and for a lane's. -/
def Obligations.HandlerCommandsMeanExec : Prop :=
  (∀ (i : Instr) (s : State) (tracing : Bool), s.ctx = .exec .top tracing →
    runInstr (fun t _ m => stepFromTop tracing t m) i s = exec i s) ∧
  (∀ (i : Instr) (s : State) (k : Nat) (tracing : Bool), s.ctx = .exec (.lane k) tracing →
    runInstr stepFromLane i s = exec i s)

/-! ### Invariants and whole-machine rules -/

/-- R59: the invariants hold right after reset, where no latch is set (the configuration is log entry 1's). -/
def Obligations.ResetStateMeetsInvariants : Prop :=
  State.reset.Inv ∧ State.reset.NoFatal

/-- R59 (1), (2), (3), (6), (7), with R21, R41, R47, R58: every step keeps the invariants, from every state that meets
them. -/
def Obligations.StepKeepsInvariants : Prop :=
  ∀ s s' : State, s.Inv → Machine.step s = .next s' → s'.Inv

/-- R58: once a record's latch is set no command changes the record, RESET included. -/
def Obligations.FatalRecordNeverChanges : Prop :=
  ∀ (i : Instr) (s s' : State) (w : Who),
    exec i s = .next s' → (s.get w).fatal = true → s'.get w = s.get w

/-- R58 (with log entry 3's reading of 'processor'): every command presented to a fatal processor completes and leaves
the whole machine as it was. -/
def Obligations.FatalProcessorIgnoresCommands : Prop :=
  ∀ (i : Instr) (s : State), (s.get s.presented).fatal = true →
    ∃ s', exec i s = .next s' ∧ s.SameMachine s'

/-- R113, R21, R47: no command changes the configuration, a record's identity or the number of lanes; and the context
and the command port are as before when it is done. -/
def Obligations.ConfigurationAndIdentityConstant : Prop :=
  ∀ (i : Instr) (s s' : State), exec i s = .next s' →
    s'.cfg = s.cfg ∧ s'.ctx = s.ctx ∧ s'.commands = s.commands ∧ s'.lanes.length = s.lanes.length ∧
    ∀ w, (s'.get w).id = (s.get w).id ∧ (s'.get w).laneIndex = (s.get w).laneIndex

/-- R40, R224: a parked top-level processor is woken by a DELIVER_IRQ to it and by nothing else; a parked lane by a
DELIVER_IRQ or START to it, or from inside a STEP of its owner. -/
def Obligations.ParkedIsWokenOnlyByDelivery : Prop :=
  ∀ (i : Instr) (s s' : State), s.ctx = .idle → exec i s = .next s' →
    (s.top.run = false → s'.top.run = true → ∃ k, i = .deliverIrq .self k) ∧
    ∀ j, (s.get (.lane j)).run = false → (s'.get (.lane j)).run = true →
      (∃ k, i = .deliverIrq (.lane j) k) ∨ (∃ pc, i = .start (.lane j) pc) ∨ ∃ tracing n, i = .step .self tracing n

/-- R39, R121, R183: outside a STEP a pending bit of the top-level processor is cleared only by CLEAR_PENDING with that
bit in its mask, by a write of `compare` (the timer's bit), or by RESET. -/
def Obligations.PendingClearedOnlyByAcknowledge : Prop :=
  ∀ (i : Instr) (s s' : State) (n : Nat), s.ctx = .idle → exec i s = .next s' →
    s.top.pending.getLsbD n = true → s'.top.pending.getLsbD n = false →
    (∃ m, i = .clearPending .self m ∧ m.getLsbD n = true) ∨ (n = 7 ∧ ∃ v, i = .writeCr .self 0x0B v) ∨
      i = .reset .self ∨ ∃ tracing k, i = .step .self tracing k

/-- R216: outside a STEP the top-level processor leaves supervisor mode only by a SET_STATUS that writes S = 0, or by a
RESET of a configuration whose reset status has S = 0. -/
def Obligations.UserModeOnlyByStatusWrite : Prop :=
  ∀ (i : Instr) (s s' : State), s.ctx = .idle → exec i s = .next s' →
    srS s.top.sr = true → srS s'.top.sr = false →
    (∃ v, i = .setStatus .self v ∧ srS v = false) ∨ (i = .reset .self ∧ srS s.cfg.resetStatusRaw = false) ∨
      ∃ tracing n, i = .step .self tracing n

/-! ### Reset -/

/-- R60, R186, R230: the records right after construction, for every configuration. -/
def Obligations.ConstructionLeavesResetValues : Prop :=
  ∀ c : Config,
    (State.construct c).top = Proc.atReset c { Proc.blank with id := c.coreId, laneIndex := -1 } ∧
    (State.construct c).lanes.length = c.maxLanes ∧
    ∀ i, i < c.maxLanes → (State.construct c).lanes[i]? =
      some (Proc.atReset c { Proc.blank with id := c.coreId, laneIndex := Int.ofNat i })

/-- R231, R233: a RESET of the processor leaves R60's values in its record and in every lane's. -/
def Obligations.ResetOfProcessorResult : Prop :=
  ∀ s : State, s.ctx = .idle → s.top.fatal = false →
    ∃ s', exec (.reset .self) s = .next s' ∧ s'.top = Proc.atReset s.cfg s.top ∧
      (∀ (i : Nat) (p : Proc), s.lanes[i]? = some p →
        s'.lanes[i]? = some (if p.fatal then p else Proc.atReset s.cfg p)) ∧
      s'.lanes.length = s.lanes.length ∧ s'.cfg = s.cfg ∧ s'.ctx = s.ctx ∧ s'.commands = s.commands ∧
      s'.fetches = s.fetches ∧ s'.executions = s.executions ∧ s'.badAddrs = s.badAddrs

/-- R231, R233: a RESET addressed to a lane leaves R60's values in that lane and changes nothing else; the MMU gets the
mode and one flush. -/
def Obligations.ResetOfLaneResult : Prop :=
  ∀ (s : State) (i : Nat), s.Accepts (.lane i) (.lane i) →
    exec (.reset (.lane i)) s =
      .next ((s.withProc (.lane i) (Proc.atReset s.cfg (s.get (.lane i)))).emitAll
        (statusCalls (.lane i) (Proc.atReset s.cfg (s.get (.lane i))).sr))

/-- R234: a second RESET in a row changes nothing in any record but `flush_count`; from the harness, or of a lane from its
owner's handler. -/
def Obligations.ResetIsIdempotent : Prop :=
  ∀ (s : State) (t : Target) (w : Who), s.Accepts t w → (s.ctx = .idle ∨ t ≠ .self) →
    ∃ s1 s2, exec (.reset t) s = .next s1 ∧ exec (.reset t) s1 = .next s2 ∧
      ∀ v, s2.get v = { s1.get v with flushCount := (s2.get v).flushCount }

/-- R59 (4), R170, R232: after a RESET of it a lane has EF and EV exactly as its configuration has the capabilities,
and ET from `RESET_STATUS_RAW`. -/
def Obligations.LaneResetForcesEnables : Prop :=
  ∀ (s : State) (i : Nat), s.Accepts (.lane i) (.lane i) → 0 ≤ (s.get (.lane i)).laneIndex →
    ∃ s', exec (.reset (.lane i)) s = .next s' ∧
      srEF (s'.get (.lane i)).sr = s.cfg.capFpu ∧ srEV (s'.get (.lane i)).sr = s.cfg.capVec ∧
      srET (s'.get (.lane i)).sr = srET s.cfg.resetStatusRaw

/-- R95: RESET or STEP to the record whose handler is running sets its latch, by reason `reentrant`. The response of the
refused STEP is the model's choice (log entry 8). -/
def Obligations.ReentrantCommandIsFatal : Prop :=
  ∀ (s : State) (w : Who) (tracing tr : Bool) (n : BitVec 64), s.ctx = .exec w tracing → (s.get w).fatal = false →
    exec (.reset .self) s = .next (s.latched w .reentrant) ∧
    exec (.step .self tr n) s =
      .next ((s.latched w .reentrant).emitAll [.stepResponse (encodeStepResponse .fatal 0)])

/-- R92, R171: a lane index at or above `MAX_LANES`, or any lane index presented to a lane, sets the presented record's
latch and changes nothing else, whatever the command. -/
def Obligations.BadTargetIsFatal : Prop :=
  ∀ (i : Instr) (s : State) (j : Nat), i.target = .lane j → (s.get s.presented).fatal = false →
    (s.presented ≠ .top ∨ s.cfg.maxLanes ≤ j) →
    ∃ s', exec i s = .next s' ∧ (s.latched s.presented .badTarget).SameMachine s'

/-! ### Status registers -/

/-- R111: SET_STATUS stores the canonical value, pushes the mode, flushes, and recomputes the width. -/
def Obligations.SetStatusResult : Prop :=
  ∀ (s : State) (t : Target) (w : Who) (v : BitVec 32), s.Accepts t w →
    exec (.setStatus t v) s =
      .next ((s.withProc w { s.get w with
        sr := v &&& srCap s.cfg
        mmuVm := srVM (v &&& srCap s.cfg)
        mmuS := srS (v &&& srCap s.cfg)
        flushCount := (s.get w).flushCount + 1
        xprlen := if (if srS (v &&& srCap s.cfg) then srSX (v &&& srCap s.cfg) else srUX (v &&& srCap s.cfg)) then .w64
          else .w32 }).emitAll (statusCalls w (v &&& srCap s.cfg)))

/-- R112: for every written value the readback has no reserved-zero bit set and claims no capability that is not
configured, and the width is 64 exactly when the stored bit of the stored mode is set. -/
def Obligations.StatusReadbackCanonical : Prop :=
  ∀ (s : State) (t : Target) (w : Who) (v : BitVec 32), s.Accepts t w →
    ∃ s', exec (.setStatus t v) s = .next s' ∧
      (s'.get w).sr &&& 0xFFFE0000 = 0 ∧
      (s.cfg.cap64 = false → srUX (s'.get w).sr = false ∧ srSX (s'.get w).sr = false) ∧
      (s.cfg.capFpu = false → srEF (s'.get w).sr = false) ∧
      (s.cfg.capRvc = false → srEC (s'.get w).sr = false) ∧
      (s.cfg.capVec = false → srEV (s'.get w).sr = false) ∧
      ((s'.get w).xprlen = .w64 ↔
        (srS (s'.get w).sr = true ∧ srSX (s'.get w).sr = true) ∨
        (srS (s'.get w).sr = false ∧ srUX (s'.get w).sr = true))

/-- R114, with its encoding: SET_FSTATUS stores bits 7:0 and does nothing else; neither `CAP_FPU` nor `SR.EF` is consulted. -/
def Obligations.SetFstatusResult : Prop :=
  (∀ c : CommandWord, fieldOp c = 0x11 → decode c = .ok (.setFstatus (decodeTarget (fieldT c)) ((fieldV c).extractLsb' 0 32))) ∧
  ∀ (s : State) (t : Target) (w : Who) (v : BitVec 32), s.Accepts t w →
    exec (.setFstatus t v) s = .next (s.withProc w { s.get w with fsr := v &&& 0x000000FF })

/-! ### Interrupts and traps -/

/-- R124: DELIVER_IRQ sets the pending bit and the run flag, whatever is enabled or masked. -/
def Obligations.DeliverIrqResult : Prop :=
  ∀ (s : State) (t : Target) (w : Who) (k : BitVec 3), s.Accepts t w →
    exec (.deliverIrq t k) s =
      .next (s.withProc w { s.get w with pending := (s.get w).pending ||| (1#8 <<< k.toNat), run := true })

/-- R126, with its encoding: CLEAR_PENDING clears the mask's bits and nothing else. -/
def Obligations.ClearPendingResult : Prop :=
  (∀ c : CommandWord, fieldOp c = 0x21 → decode c = .ok (.clearPending (decodeTarget (fieldT c)) ((fieldA c).extractLsb' 0 8))) ∧
  ∀ (s : State) (t : Target) (w : Who) (m : BitVec 8), s.Accepts t w →
    exec (.clearPending t m) s = .next (s.withProc w { s.get w with pending := (s.get w).pending &&& ~~~m })

/-- R121, R206, R59 (5): the interrupt check signals line `n`, by cause 16 + n, exactly when ET is set, `n` is pending
and enabled, and no lower line is; it signals nothing exactly when ET is clear or no line is both. -/
def Obligations.InterruptCheckPicksLowestLine : Prop :=
  ∀ p : Proc,
    (∀ n, n < 8 →
      (takeInterruptIfAny p = some (BitVec.ofNat 5 (16 + n)) ↔
        p.sr.getLsbD 0 = true ∧ p.pending.getLsbD n = true ∧ p.sr.getLsbD (8 + n) = true ∧
          ∀ m, m < n → p.pending.getLsbD m = false ∨ p.sr.getLsbD (8 + m) = false)) ∧
    (takeInterruptIfAny p = none ↔
      p.sr.getLsbD 0 = false ∨ ∀ n, n < 8 → p.pending.getLsbD n = false ∨ p.sr.getLsbD (8 + n) = false)

/-- R122, R209: the status a trap entry writes has ET clear, S set, PS the old S, and every other bit kept. R212: the
status a trap return writes has S from PS, ET set, and every other bit kept, PS too; so after an entry that found traps
enabled the mode is back and every bit but PS is as before the trap. -/
def Obligations.TrapStatusBits : Prop :=
  ∀ sr : BitVec 32,
    srET (trapEntryStatus sr) = false ∧ srS (trapEntryStatus sr) = true ∧ srPS (trapEntryStatus sr) = srS sr ∧
    (∀ k, k ≠ 0 → k ≠ 4 → k ≠ 5 → (trapEntryStatus sr).getLsbD k = sr.getLsbD k) ∧
    srS (trapReturnStatus sr) = srPS sr ∧ srET (trapReturnStatus sr) = true ∧
    (∀ k, k ≠ 0 → k ≠ 5 → (trapReturnStatus sr).getLsbD k = sr.getLsbD k) ∧
    (srET sr = true →
      srS (trapReturnStatus (trapEntryStatus sr)) = srS sr ∧ srET (trapReturnStatus (trapEntryStatus sr)) = true ∧
      ∀ k, k ≠ 4 → (trapReturnStatus (trapEntryStatus sr)).getLsbD k = sr.getLsbD k)

/-- R122, R210: trap entry of a recognised cause. It goes through setStatus, records `cause`, saves `pc` in `epc`,
redirects to `evec`, copies the MMU's bad address, whatever ET was; nothing else of the machine changes. -/
def Obligations.TrapEntryResult : Prop :=
  ∀ (s : State) (w : Who) (tracing : Bool) (c : Cause) (b : Word) (bs : List Word),
    (s.proc? w).isSome = true → c.toNat < 24 → s.badAddrs = b :: bs →
    s.enterTrap w tracing c =
      (({ s with badAddrs := bs }).withProc w { s.get w with
        sr := trapEntryStatus (s.get w).sr &&& srCap s.cfg
        xprlen := xprlenOf (trapEntryStatus (s.get w).sr &&& srCap s.cfg)
        mmuVm := srVM (trapEntryStatus (s.get w).sr &&& srCap s.cfg)
        mmuS := srS (trapEntryStatus (s.get w).sr &&& srCap s.cfg)
        flushCount := (s.get w).flushCount + 1
        cause := c
        epc := (s.get w).pc
        pc := (s.get w).evec
        badvaddr := b }).emitAll
        ((if tracing then [Event.traceTrap (s.get w).id c (s.get w).pc] else []) ++
          statusCalls w (trapEntryStatus (s.get w).sr &&& srCap s.cfg) ++ [Event.getLastBadVirtualAddress w])

/-- R203: an unrecognised cause arriving at enterTrap sets the latch and changes nothing else: no status transition, no
`epc`, no redirect, no trace event. -/
def Obligations.UnrecognisedCauseIsFatal : Prop :=
  ∀ (s : State) (w : Who) (tracing : Bool) (c : Cause), 24 ≤ c.toNat →
    s.enterTrap w tracing c = s.latched w .badCause

/-- R125, R237: after reset, a delivery of any kind is taken by the first STEP 1: `pc` at the vector, the interrupt's
cause, `epc` the reset pc, one retired instruction counted, the pending bit still set (configuration of log entry 1). -/
def Obligations.BootInterruptTaken : Prop :=
  ∀ k : BitVec 3, ∃ s1 s2,
    exec (.deliverIrq .self k) State.reset = .next s1 ∧ exec (.step .self false 1) s1 = .next s2 ∧
    s2.top.pc = State.reset.top.evec ∧ s2.top.cause = BitVec.ofNat 5 (16 + k.toNat) ∧
    s2.top.epc = State.reset.top.pc ∧ s2.top.cycle = 1 ∧ s2.top.pending = 1#8 <<< k.toNat

/-! ### The execution loop -/

/-- R145, R40, R144: a STEP of a parked record only answers (PARKED, 0), whatever `n` and tracing are; with n = 0 a running
record's STEP only answers (BUDGET, 0), the loop body never running. From the harness or from the owner's handler. -/
def Obligations.StepThatDoesNothing : Prop :=
  ∀ (s : State) (t : Target) (w : Who) (tracing : Bool) (n : BitVec 64), s.Accepts t w →
    (s.ctx = .idle ∨ t ≠ .self) →
    ((s.get w).run = false →
      exec (.step t tracing n) s = .next (s.emitAll [.stepResponse (encodeStepResponse .parked 0)])) ∧
    ((s.get w).run = true →
      exec (.step t tracing 0) s = .next (s.emitAll [.stepResponse (encodeStepResponse .budget 0)]))

/-- R144, R153: a STEP of any length completes, in every context, unless a handler never returns. -/
def Obligations.StepCompletesUnlessHandlerHangs : Prop :=
  ∀ (s : State) (t : Target) (tracing : Bool) (n : BitVec 64), s.NoScriptedHang →
    ∃ s', exec (.step t tracing n) s = .next s'

/-- R139, R141, R146, R147, R149, R98: one instruction whose handler issues any commands and answers CONTINUE. They act in
the order issued, each as `exec` says; then `pc` is what was answered, `cycle` and `count` advance by one, and the timer's
pending bit is set if `count` crosses `compare`; nothing else changes but the answer (BUDGET, 1). The fetch is at `pc` with
`SR.EC`. The trace event of a lane, which here the harness steps, follows the flag of its command: the model's choice
(log entry 18). -/
def Obligations.ContinueRetiresOne : Prop :=
  ∀ (s s1 : State) (t : Target) (w : Who) (tracing : Bool) (npc : Word),
    s.Accepts t w → s.ctx = .idle → s.Quiet w →
    s.Executes w tracing s1 (.continueAt npc) → (s1.get w).fatal = false →
    exec (.step t tracing 1) s =
      .next ((({ s1 with ctx := .idle }).withProc w { s1.get w with
        pc := npc
        cycle := (s1.get w).cycle + 1
        count := (s1.get w).count + 1
        pending :=
          if (s1.get w).count.toNat < (s1.get w).compare.toNat ∧
              (s1.get w).count.toNat + 1 ≥ (s1.get w).compare.toNat then
            (s1.get w).pending ||| 0x80
          else (s1.get w).pending }).emitAll [.stepResponse (encodeStepResponse .budget 1)])

/-- R137, R152, R207: at every iteration boundary, of a STEP from the harness or of a lane's inside its owner's, the
harness's deliveries that land there (each as DELIVER_IRQ to its target; log entry 7) are seen by that boundary's interrupt
check; a pending enabled interrupt is then taken before anything is fetched, the iteration being the trap entry alone. A
STEP 1 that starts so is that entry, counted as one. -/
def Obligations.InterruptTakenBeforeFetch : Prop :=
  ∀ (s s1 : State) (t : Target) (w : Who) (tracing : Bool) (c : Cause),
    s.Accepts t w → (s.ctx = .idle ∨ t ≠ .self) →
    State.Issues (s.arriving w) (s.pastArrivals w) s1 → (s1.get w).fatal = false →
    takeInterruptIfAny (s1.get w) = some c →
    (∀ f, iterate f w tracing s = .retired (s1.enterTrap w tracing c)) ∧
    ∀ (b : Word) (bs : List Word), s.ctx = .idle → (s.get w).run = true → s.badAddrs = b :: bs →
      ∃ s', exec (.step t tracing 1) s = .next s' ∧
        s'.get w = Proc.closeBatch 1 ((s1.get w).enterTrap s.cfg c b) ∧
        (∀ v, v ≠ w → s'.get v = s1.get v) ∧
        s'.fetches = s.fetches ∧ s'.executions = s.executions ∧ s'.badAddrs = bs ∧
        s'.events.head? = some (.stepResponse (encodeStepResponse .budget 1))

/-- R138, R140, R147: a fetch fault of a recognised cause is a trap entry that counts one, and no handler is called. -/
def Obligations.FetchFaultTraps : Prop :=
  ∀ (s : State) (t : Target) (w : Who) (tracing : Bool) (fw : FetchWord) (fs : List FetchWord) (c : Cause) (b : Word)
    (bs : List Word),
    s.Accepts t w → s.ctx = .idle → s.Quiet w → s.fetches = fw :: fs → decodeFetch fw = .fetchFault c →
    c.toNat < 24 → s.badAddrs = b :: bs →
    ∃ s', exec (.step t tracing 1) s = .next s' ∧
      s'.get w = Proc.closeBatch 1 ((s.get w).enterTrap s.cfg c b) ∧
      (∀ v, v ≠ w → s'.get v = s.get v) ∧
      s'.fetches = fs ∧ s'.executions = s.executions ∧ s'.badAddrs = bs ∧
      s'.events.head? = some (.stepResponse (encodeStepResponse .budget 1))

/-- R140, R147, R149: a handler's TRAP of a recognised cause is a trap entry at the address of its instruction, and counts
one; the commands it issued before stay in effect. -/
def Obligations.HandlerTrapTraps : Prop :=
  ∀ (s s1 : State) (t : Target) (w : Who) (tracing : Bool) (c : Cause) (b : Word) (bs : List Word),
    s.Accepts t w → s.ctx = .idle → s.Quiet w →
    s.Executes w tracing s1 (.trap c) → (s1.get w).fatal = false → c.toNat < 24 → s1.badAddrs = b :: bs →
    ∃ s', exec (.step t tracing 1) s = .next s' ∧
      s'.get w = Proc.closeBatch 1 ((s1.get w).enterTrap s.cfg c b) ∧
      (∀ v, v ≠ w → s'.get v = s1.get v) ∧ (s'.get w).epc = (s.get w).pc ∧
      s'.fetches = s1.fetches ∧ s'.executions = s1.executions ∧ s'.badAddrs = bs ∧
      s'.events.head? = some (.stepResponse (encodeStepResponse .budget 1))

/-- R136, R203, R149: a handler's TRAP of an unrecognised cause ends the STEP with the latch set, nothing retired and no
counter moved; the commands it issued before stay in effect. -/
def Obligations.HandlerBadCauseEndsStep : Prop :=
  ∀ (s s1 : State) (t : Target) (w : Who) (tracing : Bool) (n : BitVec 64) (c : Cause),
    s.Accepts t w → s.ctx = .idle → s.Quiet w → n ≠ 0 →
    s.Executes w tracing s1 (.trap c) → (s1.get w).fatal = false → 24 ≤ c.toNat →
    ∃ s', exec (.step t tracing n) s = .next s' ∧
      s'.get w = { s1.get w with fatal := true } ∧ s'.top.fatal = true ∧
      s'.events.head? = some (.stepResponse (encodeStepResponse .fatal 0))

/-- R143, R149, R233: HALT resets the stepping processor (a top-level one with its lanes, a lane alone), overwriting what
the handler's commands wrote there, and ends the STEP at once with the count before it, added to nothing. -/
def Obligations.HaltResetsAndEndsStep : Prop :=
  ∀ (s s1 : State) (t : Target) (w : Who) (tracing : Bool) (n : BitVec 64),
    s.Accepts t w → s.ctx = .idle → s.Quiet w → n ≠ 0 →
    s.Executes w tracing s1 .halt → (s1.get w).fatal = false →
    ∃ s', exec (.step t tracing n) s = .next s' ∧
      s'.get w = Proc.atReset s.cfg (s1.get w) ∧
      (∀ (i : Nat) (p : Proc), w ≠ .lane i → s1.lanes[i]? = some p →
        s'.lanes[i]? = some (if w = .top ∧ p.fatal = false then Proc.atReset s.cfg p else p)) ∧
      (w ≠ .top → s'.top = s1.top) ∧
      s'.events.head? = some (.stepResponse (encodeStepResponse .halted 0))

/-- R142, R149: a lane's LANE_COMPLETE ends its STEP with every record as the completing handler's commands left it, `pc`
at the completing instruction, which is not counted. -/
def Obligations.LaneCompleteEndsLaneStep : Prop :=
  ∀ (s s1 : State) (i : Nat) (tracing : Bool) (n : BitVec 64),
    s.Accepts (.lane i) (.lane i) → s.ctx = .idle → s.Quiet (.lane i) → (s.get (.lane i)).laneIndex ≠ -1 → n ≠ 0 →
    s.Executes (.lane i) tracing s1 .laneComplete → (s1.get (.lane i)).fatal = false →
    ∃ s', exec (.step (.lane i) tracing n) s = .next s' ∧ s1.SameMachine s' ∧
      (s'.get (.lane i)).pc = (s.get (.lane i)).pc ∧
      s'.events.head? = some (.stepResponse (encodeStepResponse .laneComplete 0))

/-- R142, R149, R226: LANE_COMPLETE on the top-level processor is FATAL: after what the handler's commands wrote only the
latch is set, `pc` and the counters stay, the answer is (FATAL, 0). -/
def Obligations.LaneCompleteOnTopIsFatal : Prop :=
  ∀ (s s1 : State) (tracing : Bool) (n : BitVec 64),
    s.Accepts .self .top → s.ctx = .idle → s.Quiet .top → s.top.laneIndex = -1 → n ≠ 0 →
    s.Executes .top tracing s1 .laneComplete → s1.top.fatal = false →
    ∃ s', exec (.step .self tracing n) s = .next s' ∧
      s'.top = { s1.top with fatal := true } ∧ s'.top.pc = s.top.pc ∧ s'.lanes = s1.lanes ∧
      s'.events.head? = some (.stepResponse (encodeStepResponse .fatal 0))

/-- R212: a handler that performs the trap-return sequence retires one instruction with `pc` at `epc`, S from PS and ET
set. -/
def Obligations.TrapReturnResumes : Prop :=
  ∀ (s : State) (t : Target) (w : Who) (tracing : Bool) (fw : FetchWord) (fs : List FetchWord) (insn : InsnWord)
    (h : HandlerToken) (es : List Execution),
    s.Accepts t w → s.ctx = .idle → s.Quiet w → s.fetches = fw :: fs → decodeFetch fw = .fetched insn h →
    s.executions = s.trapReturn w :: es →
    ∃ s', exec (.step t tracing 1) s = .next s' ∧
      s'.get w = Proc.closeBatch 1 { (s.get w).setStatus s.cfg (trapReturnStatus (s.get w).sr) with pc := (s.get w).epc } ∧
      srS (s'.get w).sr = srPS (s.get w).sr ∧ srET (s'.get w).sr = true

/-- R98, R142 to R147, R36: what the answer of a STEP says of the record that was stepped. At most `n` are retired; on
BUDGET exactly `n`, and `cycle` is `n` higher; on LANE_COMPLETE it is a lane's and `cycle` is the retired count higher; on
HALTED the record is parked with `cycle` 0; PARKED says it was parked; FATAL says its latch is set and `cycle` has not
moved. -/
def Obligations.StepResponseTellsTheOutcome : Prop :=
  ∀ (s s' : State) (t : Target) (w : Who) (tracing : Bool) (n : BitVec 64),
    s.Accepts t w → s.ctx = .idle → exec (.step t tracing n) s = .next s' →
    ∃ (e : StepExit) (r : Nat),
      s'.events.head? = some (.stepResponse (encodeStepResponse e r)) ∧ r ≤ n.toNat ∧
      (e = .budget → r = n.toNat ∧ (s'.get w).cycle = (s.get w).cycle + n) ∧
      (e = .laneComplete → (s.get w).laneIndex ≠ -1 ∧ (s'.get w).cycle = (s.get w).cycle + BitVec.ofNat 64 r) ∧
      (e = .halted → r < n.toNat ∧ (s'.get w).run = false ∧ (s'.get w).cycle = 0) ∧
      (e = .parked → r = 0 ∧ (s.get w).run = false ∧ s'.get w = s.get w) ∧
      (e = .fatal → (s'.get w).fatal = true ∧ (s'.get w).cycle = (s.get w).cycle)

/-- R155, R47: the STEP of a lane changes no other lane, and of its owner nothing but the latch, which is set only with
the lane's own; from the harness or from the owner's handler. -/
def Obligations.LaneStepLeavesOwnerAlone : Prop :=
  ∀ (s s' : State) (i : Nat) (tracing : Bool) (n : BitVec 64),
    s.Accepts (.lane i) (.lane i) → exec (.step (.lane i) tracing n) s = .next s' →
    (∀ j, j ≠ i → s'.lanes[j]? = s.lanes[j]?) ∧ s'.top = { s.top with fatal := s'.top.fatal } ∧
    (s'.top.fatal = true → (s'.get (.lane i)).fatal = true)

/-! ### Timer -/

/-- R176: `count` advances by the retired count modulo 2^32, and the timer's pending bit is set exactly on a crossing,
compared on the unwrapped sum; nothing else changes. R146: the end of a STEP advances `cycle` by the retired count and
then updates the timer by the same count. -/
def Obligations.TimerUpdateResult : Prop :=
  ∀ (p : Proc) (retired : Nat),
    p.timerUpdate retired =
      { p with
        count := BitVec.ofNat 32 ((p.count.toNat + retired) % 2 ^ 32)
        pending := if p.count.toNat < p.compare.toNat ∧ p.count.toNat + retired ≥ p.compare.toNat then
          p.pending ||| 0x80 else p.pending } ∧
    p.closeBatch retired = Proc.timerUpdate retired { p with cycle := p.cycle + BitVec.ofNat 64 retired }

/-- R177: the corner cases (a) to (h) of the timer. -/
def Obligations.TimerCornerCases : Prop :=
  ∀ p : Proc,
    p.timerUpdate 0 = p ∧
    (∀ r, p.compare = 0 → (p.timerUpdate r).pending = p.pending) ∧
    (∀ r, p.count = p.compare → (p.timerUpdate r).pending = p.pending) ∧
    (∀ r, p.count.toNat < p.compare.toNat → p.count.toNat + r = p.compare.toNat →
      (p.timerUpdate r).pending = p.pending ||| 0x80) ∧
    (∀ r, p.count.toNat < p.compare.toNat → p.compare.toNat ≤ p.count.toNat + r →
      (p.timerUpdate r).pending = p.pending ||| 0x80) ∧
    (p.count = 0xFFFFFFFE → p.compare = 0xFFFFFFFF →
      (p.timerUpdate 4).pending = p.pending ||| 0x80 ∧ (p.timerUpdate 4).count = 2) ∧
    (p.count = 0xFFFFFFFE → p.compare = 1 →
      (p.timerUpdate 4).pending = p.pending ∧ (p.timerUpdate 4).count = 2 ∧
      ∀ q : Proc, ∀ r, q.compare = 1 → (q.timerUpdate r).pending ≠ q.pending → q.count = 0) ∧
    (∀ r, 2 ^ 32 ≤ r → p.count.toNat < p.compare.toNat → (p.timerUpdate r).pending = p.pending ||| 0x80)

/-- R178: after a crossing the timer does not fire again in any later batch before `count` wraps, even if the bit has
been cleared in between. -/
def Obligations.TimerFiresOncePerCrossing : Prop :=
  ∀ (p : Proc) (a b : Nat) (m : BitVec 8),
    p.count.toNat < p.compare.toNat → p.compare.toNat ≤ p.count.toNat + a → p.count.toNat + a < 2 ^ 32 →
    (((p.timerUpdate a).clearPending m).timerUpdate b).pending = ((p.timerUpdate a).clearPending m).pending

/-! ### Vector lanes -/

/-- R161, with its encoding: SET_VREGS writes the two counts and nothing else, for all 6-bit values. -/
def Obligations.SetVregsResult : Prop :=
  (∀ c : CommandWord, fieldOp c = 0x40 →
    decode c = .ok (.setVregs (decodeTarget (fieldT c)) ((fieldA c).extractLsb' 0 6) ((fieldA c).extractLsb' 8 6))) ∧
  ∀ (s : State) (t : Target) (w : Who) (x f : BitVec 6), s.Accepts t w →
    exec (.setVregs t x f) s = .next (s.withProc w { s.get w with nxprUse := x, nfprUse := f })

/-- R162, R164: SET_BANKS writes the low `N_BANKS` bits of the mask and their count, and leaves `vlmax` and `vl`. -/
def Obligations.SetBanksResult : Prop :=
  ∀ (s : State) (t : Target) (w : Who) (m : BitVec 16), s.Accepts t w →
    exec (.setBanks t m) s =
      .next (s.withProc w { s.get w with
        vecbanks := m &&& BitVec.ofNat 16 (2 ^ s.cfg.nBanks - 1)
        vecbanksCount := popcount (m &&& BitVec.ofNat 16 (2 ^ s.cfg.nBanks - 1)) })

/-- R163, with its encoding: RECOMPUTE_VLMAX computes `vlmax` by the formula, clamps it to `MAX_LANES` and clamps `vl` to it. -/
def Obligations.RecomputeVlmaxResult : Prop :=
  (∀ c : CommandWord, fieldOp c = 0x42 → decode c = .ok (.recomputeVlmax (decodeTarget (fieldT c)))) ∧
  ∀ (s : State) (t : Target) (w : Who), s.Accepts t w →
    ∀ req m : Nat, req = (s.get w).nxprUse.toNat + (s.get w).nfprUse.toNat →
    m = (if req < 2 then s.cfg.bankRegs * (s.get w).vecbanksCount
      else (s.cfg.bankRegs / (req - 1)) * (s.get w).vecbanksCount) →
    exec (.recomputeVlmax t) s =
      .next (s.withProc w { s.get w with
        vlmax := min m s.cfg.maxLanes, vl := min (s.get w).vl (min m s.cfg.maxLanes) })

/-- R165 with its encoding, R166: SET_VL always yields `vl = min(vlmax, requested)` and changes nothing else. -/
def Obligations.SetVlResult : Prop :=
  (∀ c : CommandWord, fieldOp c = 0x43 → decode c = .ok (.setVl (decodeTarget (fieldT c)) (fieldV c))) ∧
  ∀ (s : State) (t : Target) (w : Who) (r : BitVec 64), s.Accepts t w →
    exec (.setVl t r) s = .next (s.withProc w { s.get w with vl := min (s.get w).vlmax r.toNat })

/-- R168, with its encoding: START sets the lane's `pc` and `run` and nothing else; with `t = 0xFFFF`, with an index at or above
`MAX_LANES`, or presented to a lane, it is `FATAL(bad_target)`. -/
def Obligations.StartResult : Prop :=
  (∀ c : CommandWord, fieldOp c = 0x44 → decode c = .ok (.start (decodeTarget (fieldT c)) (fieldV c))) ∧
  (∀ (s : State) (i : Nat) (pc : Word), s.Accepts (.lane i) (.lane i) →
    exec (.start (.lane i) pc) s = .next (s.withProc (.lane i) { s.get (.lane i) with pc := pc, run := true })) ∧
  (∀ (s : State) (pc : Word), (s.get s.presented).fatal = false →
    exec (.start .self pc) s = .next (s.latched s.presented .badTarget)) ∧
  (∀ (s : State) (i : Nat) (pc : Word), (s.get s.presented).fatal = false →
    (s.cfg.maxLanes ≤ i ∨ s.presented ≠ .top) →
    exec (.start (.lane i) pc) s = .next (s.latched s.presented .badTarget))

/-! ### State access -/

/-- R181, with its encoding: READ of a selector in the table answers that state's value and changes nothing; of any other
selector it is `FATAL(bad_selector)` on the record read. While the latch of the presented processor is set, READ `fatal`
answers the target's latch (log entry 3), and a READ changes no record and answers some value. -/
def Obligations.ReadResult : Prop :=
  (∀ c : CommandWord, fieldOp c = 0x04 →
    decode c = .ok (.read (decodeTarget (fieldT c)) ((fieldA c).extractLsb' 0 8))) ∧
  (∀ (s : State) (t : Target) (w : Who) (sel : BitVec 8), s.Accepts t w →
    (∀ r, decodeSelector sel = some r →
      exec (.read t sel) s = .next (s.emitAll [.readValue (readSelector s.cfg (s.get w) r)])) ∧
    (decodeSelector sel = none → exec (.read t sel) s = .next (s.latched w .badSelector))) ∧
  ∀ (s : State) (t : Target) (w : Who), (s.get s.presented).fatal = true → s.resolve t = some w →
    exec (.read t 0x18) s = .next (s.emitAll [.readValue (if (s.get w).fatal then 1 else 0)]) ∧
    ∀ sel, ∃ s' v, exec (.read t sel) s = .next s' ∧ s.SameMachine s' ∧ s'.events = .readValue v :: s.events

/-- R99: what each selector names and how wide it reads. -/
def Obligations.SelectorTable : Prop :=
  ∀ (c : Config) (p : Proc),
    (([0x00, 0x01, 0x02, 0x03, 0x04, 0x05, 0x06, 0x07, 0x08, 0x09, 0x0A, 0x0B, 0x0C, 0x0D, 0x0E, 0x0F, 0x10, 0x11, 0x12,
        0x13, 0x14, 0x15, 0x16, 0x17, 0x18, 0x19, 0x1A] : List (BitVec 8)).map
        (fun sel => (decodeSelector sel).map (readSelector c p))) =
      [some (p.sr.setWidth 64), some (p.fsr.setWidth 64), some p.pc, some p.epc, some p.evec, some p.badvaddr,
        some (p.cause.setWidth 64), some p.k0, some p.k1, some p.cycle, some (p.count.setWidth 64),
        some (p.compare.setWidth 64), some (p.pending.setWidth 64), some (if p.run then 1 else 0),
        some (if p.xprlen = .w64 then 64 else 32), some (p.id.setWidth 64), some (BitVec.ofInt 64 p.laneIndex),
        some (p.vecbanks.setWidth 64), some (BitVec.ofNat 64 p.vecbanksCount), some (BitVec.ofNat 64 c.bankRegs),
        some (p.nxprUse.setWidth 64), some (p.nfprUse.setWidth 64), some (BitVec.ofNat 64 p.vlmax),
        some (BitVec.ofNat 64 p.vl), some (if p.fatal then 1 else 0), some (if p.mmuVm then 1 else 0),
        some (if p.mmuS then 1 else 0)] ∧
    (∀ i : BitVec 5, decodeSelector (0x20 + i.setWidth 8) = some (.x i) ∧
      decodeSelector (0x40 + i.setWidth 8) = some (.f i) ∧
      readSelector c p (.x i) = p.x[i.toNat]'i.isLt ∧ readSelector c p (.f i) = p.f[i.toNat]'i.isLt) ∧
    (∀ sel : BitVec 8, decodeSelector sel = none ↔ (0x1B ≤ sel.toNat ∧ sel.toNat < 0x20) ∨ 0x60 ≤ sel.toNat)

/-- R182 with its encoding, R183, R180: WRITE_CR reaches exactly `epc`, `evec`, `k0`, `k1`, `count`, `compare`; a write of `compare` also
clears `pending[7]`; every other selector is `FATAL(bad_selector)`. -/
def Obligations.WriteCrResult : Prop :=
  (∀ c : CommandWord, fieldOp c = 0x20 → decode c = .ok (.writeCr (decodeTarget (fieldT c)) ((fieldA c).extractLsb' 0 8) (fieldV c))) ∧
  ∀ (s : State) (t : Target) (w : Who) (v : Word), s.Accepts t w →
    exec (.writeCr t 0x03 v) s = .next (s.withProc w { s.get w with epc := v }) ∧
    exec (.writeCr t 0x04 v) s = .next (s.withProc w { s.get w with evec := v }) ∧
    exec (.writeCr t 0x07 v) s = .next (s.withProc w { s.get w with k0 := v }) ∧
    exec (.writeCr t 0x08 v) s = .next (s.withProc w { s.get w with k1 := v }) ∧
    exec (.writeCr t 0x0A v) s = .next (s.withProc w { s.get w with count := v.setWidth 32 }) ∧
    exec (.writeCr t 0x0B v) s =
      .next (s.withProc w { s.get w with
        compare := v.setWidth 32, pending := (s.get w).pending &&& ~~~0x80#8 }) ∧
    ∀ sel : BitVec 8, sel ∉ ([0x03, 0x04, 0x07, 0x08, 0x0A, 0x0B] : List (BitVec 8)) →
      exec (.writeCr t sel v) s = .next (s.latched w .badSelector)

/-- R184 with its encoding, R22: WRITE_XPR stores all 64 bits in `x[i]`, index 0 like any other, whatever `xprlen` is, and changes nothing
else. -/
def Obligations.WriteXprResult : Prop :=
  (∀ c : CommandWord, fieldOp c = 0x30 → decode c = .ok (.writeXpr (decodeTarget (fieldT c)) ((fieldA c).extractLsb' 0 5) (fieldV c))) ∧
  ∀ (s : State) (t : Target) (w : Who) (i : BitVec 5) (v : Word), s.Accepts t w →
    exec (.writeXpr t i v) s = .next (s.withProc w { s.get w with x := (s.get w).x.set i.toNat v i.isLt })

/-- R185, with its encoding: WRITE_FPR stores in `f[i]` and changes nothing else; `SR.EF` is not consulted, `FSR` not touched. -/
def Obligations.WriteFprResult : Prop :=
  (∀ c : CommandWord, fieldOp c = 0x31 → decode c = .ok (.writeFpr (decodeTarget (fieldT c)) ((fieldA c).extractLsb' 0 5) (fieldV c))) ∧
  ∀ (s : State) (t : Target) (w : Who) (i : BitVec 5) (v : Word), s.Accepts t w →
    exec (.writeFpr t i v) s = .next (s.withProc w { s.get w with f := (s.get w).f.set i.toNat v i.isLt })
end

