-- ==== Sys2Proof/Laws/Decode.lean ====
section
/-! SUPPORT. The command word field by field: what each field of a packed word reads as, bit by bit and whole. -/

namespace Sys2Proof

/-- A field of a word is `f` if its bits are. -/
theorem extractLsb'_eq_of_bits {n m : Nat} (w : BitVec n) (lo : Nat) (f : BitVec m)
    (h : ∀ i, i < m → w.getLsbD (lo + i) = f.getLsbD i) : w.extractLsb' lo m = f := by
  ext i hi
  rw [BitVec.getElem_extractLsb', h i hi, BitVec.getLsbD_eq_getElem hi]

/-- One bit of a word put together from two. -/
theorem getLsbD_of_append {n m k : Nat} (hk : n + m = k) (x : BitVec n) (y : BitVec m) (z : BitVec k)
    (hz : z = (x ++ y).cast hk) (i : Nat) :
    z.getLsbD i = if i < m then y.getLsbD i else x.getLsbD (i - m) := by
  subst hk; subst hz; simp [BitVec.getLsbD_append]

/-- Every bit of a packed command (R91). -/
theorem packCommand_getLsbD (op : BitVec 8) (a : BitVec 16) (t : Target) (v : BitVec 64) (i : Nat) :
    (packCommand op a t v).getLsbD i =
      if i < 8 then op.getLsbD i
      else if i < 24 then a.getLsbD (i - 8)
      else if i < 40 then (encodeTarget t).getLsbD (i - 24)
      else v.getLsbD (i - 40) := by
  rw [getLsbD_of_append (n := 96) (m := 8) rfl (v ++ encodeTarget t ++ a : BitVec 96) op
      (packCommand op a t v) rfl,
    getLsbD_of_append (n := 80) (m := 16) rfl (v ++ encodeTarget t : BitVec 80) a
      (v ++ encodeTarget t ++ a : BitVec 96) rfl,
    getLsbD_of_append (n := 64) (m := 16) rfl v (encodeTarget t) (v ++ encodeTarget t : BitVec 80) rfl]
  repeat' split
  all_goals first | rfl | (exfalso; omega)

@[simp] theorem fieldOp_packCommand (op : BitVec 8) (a : BitVec 16) (t : Target) (v : BitVec 64) :
    fieldOp (packCommand op a t v) = op :=
  extractLsb'_eq_of_bits _ _ _ fun i hi => by rw [packCommand_getLsbD, if_pos (by omega)]; congr 1; omega

@[simp] theorem fieldA_packCommand (op : BitVec 8) (a : BitVec 16) (t : Target) (v : BitVec 64) :
    fieldA (packCommand op a t v) = a :=
  extractLsb'_eq_of_bits _ _ _ fun i hi => by
    rw [packCommand_getLsbD, if_neg (by omega), if_pos (by omega)]; congr 1; omega

@[simp] theorem fieldT_packCommand (op : BitVec 8) (a : BitVec 16) (t : Target) (v : BitVec 64) :
    fieldT (packCommand op a t v) = encodeTarget t :=
  extractLsb'_eq_of_bits _ _ _ fun i hi => by
    rw [packCommand_getLsbD, if_neg (by omega), if_neg (by omega), if_pos (by omega)]; congr 1; omega

@[simp] theorem fieldV_packCommand (op : BitVec 8) (a : BitVec 16) (t : Target) (v : BitVec 64) :
    fieldV (packCommand op a t v) = v :=
  extractLsb'_eq_of_bits _ _ _ fun i hi => by
    rw [packCommand_getLsbD, if_neg (by omega), if_neg (by omega), if_neg (by omega)]; congr 1; omega

/-- The low bits of a widened operand are the operand. -/
theorem extractLsb'_setWidth {n m : Nat} (h : n ≤ m) (x : BitVec n) : (x.setWidth m).extractLsb' 0 n = x :=
  extractLsb'_eq_of_bits _ _ _ fun i hi => by simp [BitVec.getLsbD_setWidth]; omega

end Sys2Proof
end

