-- ==== Sys2Proof/Laws/State.lean ====
section
/-! SUPPORT. What each update of State leaves and writes, one lemma per field, and how a record reads after a record was
written. -/

namespace Sys2Proof.Machine

namespace State

@[simp] theorem upd_cfg (s : State) (w : Who) (f : Proc → Proc) : (s.upd w f).cfg = s.cfg := by cases w <;> rfl
@[simp] theorem upd_ctx (s : State) (w : Who) (f : Proc → Proc) : (s.upd w f).ctx = s.ctx := by cases w <;> rfl
@[simp] theorem upd_commands (s : State) (w : Who) (f : Proc → Proc) : (s.upd w f).commands = s.commands := by cases w <;> rfl
@[simp] theorem upd_fetches (s : State) (w : Who) (f : Proc → Proc) : (s.upd w f).fetches = s.fetches := by cases w <;> rfl
@[simp] theorem upd_executions (s : State) (w : Who) (f : Proc → Proc) : (s.upd w f).executions = s.executions := by cases w <;> rfl
@[simp] theorem upd_badAddrs (s : State) (w : Who) (f : Proc → Proc) : (s.upd w f).badAddrs = s.badAddrs := by cases w <;> rfl
@[simp] theorem upd_deliveries (s : State) (w : Who) (f : Proc → Proc) : (s.upd w f).deliveries = s.deliveries := by cases w <;> rfl
@[simp] theorem upd_laneDeliveries (s : State) (w : Who) (f : Proc → Proc) : (s.upd w f).laneDeliveries = s.laneDeliveries := by cases w <;> rfl
@[simp] theorem upd_draws (s : State) (w : Who) (f : Proc → Proc) : (s.upd w f).draws = s.draws := by cases w <;> rfl
@[simp] theorem upd_events (s : State) (w : Who) (f : Proc → Proc) : (s.upd w f).events = s.events := by cases w <;> rfl
@[simp] theorem emit_cfg (s : State) (e : Event) : (s.emit e).cfg = s.cfg := rfl
@[simp] theorem emit_ctx (s : State) (e : Event) : (s.emit e).ctx = s.ctx := rfl
@[simp] theorem emit_commands (s : State) (e : Event) : (s.emit e).commands = s.commands := rfl
@[simp] theorem emit_fetches (s : State) (e : Event) : (s.emit e).fetches = s.fetches := rfl
@[simp] theorem emit_executions (s : State) (e : Event) : (s.emit e).executions = s.executions := rfl
@[simp] theorem emit_badAddrs (s : State) (e : Event) : (s.emit e).badAddrs = s.badAddrs := rfl
@[simp] theorem emit_deliveries (s : State) (e : Event) : (s.emit e).deliveries = s.deliveries := rfl
@[simp] theorem emit_laneDeliveries (s : State) (e : Event) : (s.emit e).laneDeliveries = s.laneDeliveries := rfl
@[simp] theorem emit_draws (s : State) (e : Event) : (s.emit e).draws = s.draws := rfl
@[simp] theorem emit_top (s : State) (e : Event) : (s.emit e).top = s.top := rfl
@[simp] theorem emit_lanes (s : State) (e : Event) : (s.emit e).lanes = s.lanes := rfl
@[simp] theorem emit_events (s : State) (e : Event) : (s.emit e).events = e :: s.events := rfl
@[simp] theorem drawn_cfg (s : State) : s.drawn.cfg = s.cfg := rfl
@[simp] theorem drawn_ctx (s : State) : s.drawn.ctx = s.ctx := rfl
@[simp] theorem drawn_commands (s : State) : s.drawn.commands = s.commands := rfl
@[simp] theorem drawn_fetches (s : State) : s.drawn.fetches = s.fetches := rfl
@[simp] theorem drawn_executions (s : State) : s.drawn.executions = s.executions := rfl
@[simp] theorem drawn_badAddrs (s : State) : s.drawn.badAddrs = s.badAddrs := rfl
@[simp] theorem drawn_deliveries (s : State) : s.drawn.deliveries = s.deliveries := rfl
@[simp] theorem drawn_laneDeliveries (s : State) : s.drawn.laneDeliveries = s.laneDeliveries := rfl
@[simp] theorem drawn_events (s : State) : s.drawn.events = s.events := rfl
@[simp] theorem drawn_top (s : State) : s.drawn.top = s.top := rfl
@[simp] theorem drawn_lanes (s : State) : s.drawn.lanes = s.lanes := rfl
@[simp] theorem drawn_draws (s : State) : s.drawn.draws = s.draws + 1 := rfl
@[simp] theorem emitStatusCalls_cfg (s : State) (w : Who) (sr : BitVec 32) : (s.emitStatusCalls w sr).cfg = s.cfg := rfl
@[simp] theorem emitStatusCalls_ctx (s : State) (w : Who) (sr : BitVec 32) : (s.emitStatusCalls w sr).ctx = s.ctx := rfl
@[simp] theorem emitStatusCalls_commands (s : State) (w : Who) (sr : BitVec 32) : (s.emitStatusCalls w sr).commands = s.commands := rfl
@[simp] theorem emitStatusCalls_fetches (s : State) (w : Who) (sr : BitVec 32) : (s.emitStatusCalls w sr).fetches = s.fetches := rfl
@[simp] theorem emitStatusCalls_executions (s : State) (w : Who) (sr : BitVec 32) : (s.emitStatusCalls w sr).executions = s.executions := rfl
@[simp] theorem emitStatusCalls_badAddrs (s : State) (w : Who) (sr : BitVec 32) : (s.emitStatusCalls w sr).badAddrs = s.badAddrs := rfl
@[simp] theorem emitStatusCalls_deliveries (s : State) (w : Who) (sr : BitVec 32) : (s.emitStatusCalls w sr).deliveries = s.deliveries := rfl
@[simp] theorem emitStatusCalls_laneDeliveries (s : State) (w : Who) (sr : BitVec 32) : (s.emitStatusCalls w sr).laneDeliveries = s.laneDeliveries := rfl
@[simp] theorem emitStatusCalls_draws (s : State) (w : Who) (sr : BitVec 32) : (s.emitStatusCalls w sr).draws = s.draws := rfl
@[simp] theorem emitStatusCalls_top (s : State) (w : Who) (sr : BitVec 32) : (s.emitStatusCalls w sr).top = s.top := rfl
@[simp] theorem emitStatusCalls_lanes (s : State) (w : Who) (sr : BitVec 32) : (s.emitStatusCalls w sr).lanes = s.lanes := rfl
@[simp] theorem respond_cfg (s : State) (e : StepExit) (n : Nat) : (s.respond e n).cfg = s.cfg := rfl
@[simp] theorem respond_ctx (s : State) (e : StepExit) (n : Nat) : (s.respond e n).ctx = s.ctx := rfl
@[simp] theorem respond_commands (s : State) (e : StepExit) (n : Nat) : (s.respond e n).commands = s.commands := rfl
@[simp] theorem respond_fetches (s : State) (e : StepExit) (n : Nat) : (s.respond e n).fetches = s.fetches := rfl
@[simp] theorem respond_executions (s : State) (e : StepExit) (n : Nat) : (s.respond e n).executions = s.executions := rfl
@[simp] theorem respond_badAddrs (s : State) (e : StepExit) (n : Nat) : (s.respond e n).badAddrs = s.badAddrs := rfl
@[simp] theorem respond_deliveries (s : State) (e : StepExit) (n : Nat) : (s.respond e n).deliveries = s.deliveries := rfl
@[simp] theorem respond_laneDeliveries (s : State) (e : StepExit) (n : Nat) : (s.respond e n).laneDeliveries = s.laneDeliveries := rfl
@[simp] theorem respond_draws (s : State) (e : StepExit) (n : Nat) : (s.respond e n).draws = s.draws := rfl
@[simp] theorem respond_top (s : State) (e : StepExit) (n : Nat) : (s.respond e n).top = s.top := rfl
@[simp] theorem respond_lanes (s : State) (e : StepExit) (n : Nat) : (s.respond e n).lanes = s.lanes := rfl
@[simp] theorem raiseFatal_cfg (s : State) (w : Who) (r : FatalReason) : (s.raiseFatal w r).cfg = s.cfg := by simp [raiseFatal]
@[simp] theorem raiseFatal_ctx (s : State) (w : Who) (r : FatalReason) : (s.raiseFatal w r).ctx = s.ctx := by simp [raiseFatal]
@[simp] theorem raiseFatal_commands (s : State) (w : Who) (r : FatalReason) : (s.raiseFatal w r).commands = s.commands := by simp [raiseFatal]
@[simp] theorem raiseFatal_fetches (s : State) (w : Who) (r : FatalReason) : (s.raiseFatal w r).fetches = s.fetches := by simp [raiseFatal]
@[simp] theorem raiseFatal_executions (s : State) (w : Who) (r : FatalReason) : (s.raiseFatal w r).executions = s.executions := by simp [raiseFatal]
@[simp] theorem raiseFatal_badAddrs (s : State) (w : Who) (r : FatalReason) : (s.raiseFatal w r).badAddrs = s.badAddrs := by simp [raiseFatal]
@[simp] theorem raiseFatal_deliveries (s : State) (w : Who) (r : FatalReason) : (s.raiseFatal w r).deliveries = s.deliveries := by simp [raiseFatal]
@[simp] theorem raiseFatal_laneDeliveries (s : State) (w : Who) (r : FatalReason) : (s.raiseFatal w r).laneDeliveries = s.laneDeliveries := by simp [raiseFatal]
@[simp] theorem raiseFatal_draws (s : State) (w : Who) (r : FatalReason) : (s.raiseFatal w r).draws = s.draws := by simp [raiseFatal]

@[simp] theorem upd_top_top (s : State) (f : Proc → Proc) : (s.upd .top f).top = f s.top := rfl
@[simp] theorem upd_top_lanes (s : State) (f : Proc → Proc) : (s.upd .top f).lanes = s.lanes := rfl
@[simp] theorem upd_lane_top (s : State) (i : Nat) (f : Proc → Proc) : (s.upd (.lane i) f).top = s.top := rfl
@[simp] theorem upd_lane_lanes (s : State) (i : Nat) (f : Proc → Proc) :
    (s.upd (.lane i) f).lanes = s.lanes.modify i f := rfl

@[simp] theorem upd_lanes_length (s : State) (w : Who) (f : Proc → Proc) :
    (s.upd w f).lanes.length = s.lanes.length := by cases w <;> simp [upd]

@[simp] theorem proc?_top (s : State) : s.proc? .top = some s.top := rfl
@[simp] theorem proc?_lane (s : State) (i : Nat) : s.proc? (.lane i) = s.lanes[i]? := rfl
@[simp] theorem get_top (s : State) : s.get .top = s.top := rfl

/-- A record that exists is what `get` reads. -/
theorem proc?_eq_some_get {s : State} {w : Who} (h : (s.proc? w).isSome = true) : s.proc? w = some (s.get w) := by
  cases hp : s.proc? w <;> simp_all [get]

theorem proc?_upd_same (s : State) (w : Who) (f : Proc → Proc) : (s.upd w f).proc? w = (s.proc? w).map f := by
  cases w <;> simp

theorem proc?_upd_ne (s : State) {w w' : Who} (h : w' ≠ w) (f : Proc → Proc) : (s.upd w f).proc? w' = s.proc? w' := by
  cases w <;> cases w' <;> simp_all [eq_comm]

/-- Reading the record that was updated. -/
theorem get_upd_same {s : State} {w : Who} (h : (s.proc? w).isSome = true) (f : Proc → Proc) :
    (s.upd w f).get w = f (s.get w) := by
  rw [get, proc?_upd_same, proc?_eq_some_get h]; rfl

/-- Reading any other record. -/
theorem get_upd_ne (s : State) {w w' : Who} (h : w' ≠ w) (f : Proc → Proc) : (s.upd w f).get w' = s.get w' := by
  rw [get, get, proc?_upd_ne s h]

/-- Whether a record exists does not change. -/
@[simp] theorem proc?_upd_isSome (s : State) (w w' : Who) (f : Proc → Proc) :
    ((s.upd w f).proc? w').isSome = (s.proc? w').isSome := by
  by_cases h : w' = w
  · subst h; simp [proc?_upd_same]
  · rw [proc?_upd_ne s h]

/-- An update whose function keeps a field keeps that field of every record. -/
theorem get_upd_field {α : Type} (g : Proc → α) (s : State) (w w' : Who) (f : Proc → Proc)
    (h : ∀ p, g (f p) = g p) : g ((s.upd w f).get w') = g (s.get w') := by
  by_cases hw : w' = w
  · subst hw
    rw [get, get, proc?_upd_same]
    cases s.proc? w' <;> simp [h]
  · rw [get_upd_ne s hw]

/-- States with the same records read the same. -/
theorem get_congr {s s' : State} (ht : s'.top = s.top) (hl : s'.lanes = s.lanes) (w : Who) : s'.get w = s.get w := by
  cases w <;> simp [get, ht, hl]

@[simp] theorem emit_get (s : State) (e : Event) (w : Who) : (s.emit e).get w = s.get w := get_congr rfl rfl w
@[simp] theorem drawn_get (s : State) (w : Who) : s.drawn.get w = s.get w := get_congr rfl rfl w
@[simp] theorem emitStatusCalls_get (s : State) (w' : Who) (sr : BitVec 32) (w : Who) :
    (s.emitStatusCalls w' sr).get w = s.get w := get_congr rfl rfl w
@[simp] theorem respond_get (s : State) (e : StepExit) (n : Nat) (w : Who) : (s.respond e n).get w = s.get w :=
  get_congr rfl rfl w

/-- Two ways to write one record: with a function, or with its value. -/
theorem upd_eq_withProc {s : State} {w : Who} (h : (s.proc? w).isSome = true) (f : Proc → Proc) :
    s.upd w f = s.withProc w (f (s.get w)) := by
  cases w with
  | top => rfl
  | lane i =>
    have hi := proc?_eq_some_get h
    simp only [proc?_lane] at hi
    simp only [withProc, upd]
    congr 1
    apply List.ext_getElem? ; intro j
    simp only [List.getElem?_modify]
    by_cases hj : i = j
    · subst hj; simp [hi]
    · simp [hj]

theorem get_withProc {s : State} {w : Who} (h : (s.proc? w).isSome = true) (p : Proc) :
    (s.withProc w p).get w = p := get_upd_same h _

theorem get_withProc_ne (s : State) {w w' : Who} (h : w' ≠ w) (p : Proc) : (s.withProc w p).get w' = s.get w' :=
  get_upd_ne s h _

/-- Raising FATAL sets the latch of the record and of its owner, and emits the reason. -/
theorem raiseFatal_eq_latched (s : State) (w : Who) (r : FatalReason) : s.raiseFatal w r = s.latched w r := by
  cases w <;> rfl

@[simp] theorem raiseFatal_events (s : State) (w : Who) (r : FatalReason) :
    (s.raiseFatal w r).events = .fatal w r :: s.events := by simp [raiseFatal]

@[simp] theorem raiseFatal_lanes_length (s : State) (w : Who) (r : FatalReason) :
    (s.raiseFatal w r).lanes.length = s.lanes.length := by simp [raiseFatal]

theorem raiseFatal_top (s : State) (w : Who) (r : FatalReason) :
    (s.raiseFatal w r).top = { s.top with fatal := true } := by cases w <;> rfl

/-- After FATAL the record's latch is set. -/
theorem raiseFatal_get_fatal {s : State} {w : Who} (h : (s.proc? w).isSome = true) (r : FatalReason) :
    ((s.raiseFatal w r).get w).fatal = true := by
  cases w with
  | top => rfl
  | lane i =>
    have : (s.raiseFatal (.lane i) r).get (.lane i) = { s.get (.lane i) with fatal := true } := by
      have h2 := get_upd_same (s := s) (w := .lane i) h (fun p => { p with fatal := true })
      rw [raiseFatal, emit_get, get_upd_ne _ (by simp), h2]
    rw [this]

end State

end Sys2Proof.Machine
end

