-- ==== Sys2Proof/Laws/Reach.lean ====
section
/-! SUPPORT. What any command can do, said once: a sequence of named writes to records whose latch is not set, of latch
settings, and of changes around the machine (`Reaches`). Every command that answers a next state is such a sequence
(`exec_reaches`), so a property of states is kept by every command as soon as each of these few writes keeps it
(`Reaches.keeps`). -/

namespace Sys2Proof.Machine

/-- The writes an operation makes to one record. -/
inductive UnitStep (c : Config) (p : Proc) : Proc → Prop
  | setStatus (v : BitVec 32) : UnitStep c p (p.setStatus c v)
  | setFloatingStatus (v : BitVec 32) : UnitStep c p (p.setFloatingStatus v)
  | enterTrap (code : Cause) (b : Word) (h : code.toNat < firstBadCause) : UnitStep c p (p.enterTrap c code b)
  | deliver (k : BitVec 3) : UnitStep c p (p.deliver k)
  | clearPending (m : BitVec 8) : UnitStep c p (p.clearPending m)
  | setVregs (a b : BitVec 6) : UnitStep c p (p.setVregs a b)
  | setBanks (m : BitVec 16) : UnitStep c p (p.setBanks c m)
  | recomputeVlmax : UnitStep c p (p.recomputeVlmax c)
  | setVl (r : BitVec 64) : UnitStep c p (p.setVl r)
  | writeX (i : BitVec 5) (v : Word) : UnitStep c p (p.writeX i v)
  | writeF (i : BitVec 5) (v : Word) : UnitStep c p (p.writeF i v)
  | writeCr (r : Selector) (v : Word) (q : Proc) (h : writeSelector r v p = some q) : UnitStep c p q
  | writePc (npc : Word) : UnitStep c p { p with pc := npc }
  | closeBatch (n : Nat) : UnitStep c p (p.closeBatch n)
  | reset : UnitStep c p (p.reset c)

/-- A change around the machine: records, configuration, context and command port stay, and of the handlers' script
only a beginning is used up. -/
structure Around (s s' : State) : Prop where
  cfg : s'.cfg = s.cfg
  top : s'.top = s.top
  lanes : s'.lanes = s.lanes
  ctx : s'.ctx = s.ctx
  commands : s'.commands = s.commands
  executions : s'.executions <:+ s.executions

/-- From `s0`, by writes to records in `A` whose latch is not set, by setting latches of such records (and their
owner's), and by changes around the machine. -/
inductive Reaches (A : Who → Prop) (s0 : State) : State → Prop
  | refl : Reaches A s0 s0
  | around {s s' : State} (h : Reaches A s0 s) (ha : Around s s') : Reaches A s0 s'
  | unit {s : State} (h : Reaches A s0 s) (w : Who) (f : Proc → Proc) (hw : A w) (alive : (s.get w).fatal = false)
      (hf : UnitStep s.cfg (s.get w) (f (s.get w))) : Reaches A s0 (s.upd w f)
  | start {s : State} (h : Reaches A s0 s) (i : Nat) (pc : Word) (hw : A (.lane i))
      (alive : (s.get (.lane i)).fatal = false) : Reaches A s0 (s.upd (.lane i) (Proc.start pc))
  | latch {s : State} (h : Reaches A s0 s) (w : Who) (r : FatalReason) (hw : A w) (alive : (s.get w).fatal = false) :
      Reaches A s0 (s.raiseFatal w r)

namespace Reaches

variable {A : Who → Prop} {s0 s s' : State}

theorem trans {s1 s2 : State} (h1 : Reaches A s0 s1) (h2 : Reaches A s1 s2) : Reaches A s0 s2 := by
  induction h2 with
  | refl => exact h1
  | around _ ha ih => exact .around ih ha
  | unit _ w f hw alive hf ih => exact .unit ih w f hw alive hf
  | start _ i pc hw alive ih => exact .start ih i pc hw alive
  | latch _ w r hw alive ih => exact .latch ih w r hw alive

theorem mono {B : Who → Prop} (hAB : ∀ w, A w → B w) (h : Reaches A s0 s) : Reaches B s0 s := by
  induction h with
  | refl => exact .refl
  | around _ ha ih => exact .around ih ha
  | unit _ w f hw alive hf ih => exact .unit ih w f (hAB _ hw) alive hf
  | start _ i pc hw alive ih => exact .start ih i pc (hAB _ hw) alive
  | latch _ w r hw alive ih => exact .latch ih w r (hAB _ hw) alive

/-- What every command leaves alone: configuration, context, command port, the number of lanes; and the handlers'
script is only used up from the front. -/
theorem around_keeps (h : Reaches A s0 s) :
    s.cfg = s0.cfg ∧ s.ctx = s0.ctx ∧ s.commands = s0.commands ∧ s.lanes.length = s0.lanes.length ∧
      s.executions <:+ s0.executions := by
  induction h with
  | refl => simp
  | around _ ha ih =>
    obtain ⟨h1, h2, h3, h4, h5⟩ := ih
    exact ⟨ha.cfg.trans h1, ha.ctx.trans h2, ha.commands.trans h3, by rw [ha.lanes, h4], ha.executions.trans h5⟩
  | unit _ w f _ _ _ ih => simpa using ih
  | start _ i pc _ _ ih => simpa using ih
  | latch _ w r _ _ ih => simpa using ih

/-- The context plays no part in the writes. -/
theorem setCtx (c : Context) (h : Reaches A s0 s) :
    Reaches A { s0 with ctx := c } { s with ctx := c } := by
  induction h with
  | refl => exact .refl
  | around _ ha ih => exact .around ih ⟨ha.cfg, ha.top, ha.lanes, rfl, ha.commands, ha.executions⟩
  | @unit s1 _ w f hw alive hf ih =>
    have hg : ({ s1 with ctx := c } : State).get w = s1.get w := State.get_congr rfl rfl w
    have h2 := Reaches.unit ih w f hw (by rw [hg]; exact alive) (by rw [hg]; exact hf)
    cases w <;> exact h2
  | @start s1 _ i pc hw alive ih =>
    have hg : ({ s1 with ctx := c } : State).get (.lane i) = s1.get (.lane i) := State.get_congr rfl rfl _
    exact Reaches.start ih i pc hw (by rw [hg]; exact alive)
  | @latch s1 _ w r hw alive ih =>
    have hg : ({ s1 with ctx := c } : State).get w = s1.get w := State.get_congr rfl rfl w
    have h2 := Reaches.latch ih w r hw (by rw [hg]; exact alive)
    cases w <;> exact h2

/-- A property that holds of the first state and is kept by each kind of write holds of the last. -/
theorem keeps (P : State → Prop) (h0 : P s0)
    (hAround : ∀ s s', Around s s' → P s → P s')
    (hUnit : ∀ s w f, A w → (s.get w).fatal = false → UnitStep s.cfg (s.get w) (f (s.get w)) → P s → P (s.upd w f))
    (hStart : ∀ s i pc, A (.lane i) → (s.get (.lane i)).fatal = false → P s → P (s.upd (.lane i) (Proc.start pc)))
    (hLatch : ∀ s w r, A w → (s.get w).fatal = false → P s → P (s.raiseFatal w r))
    (h : Reaches A s0 s) : P s := by
  induction h with
  | refl => exact h0
  | around _ ha ih => exact hAround _ _ ha ih
  | unit _ w f hw alive hf ih => exact hUnit _ w f hw alive hf ih
  | start _ i pc hw alive ih => exact hStart _ i pc hw alive ih
  | latch _ w r hw alive ih => exact hLatch _ w r hw alive ih

end Reaches

/-! ### The shared operations are such sequences -/

variable {A : Who → Prop}

namespace Around

theorem emit (s : State) (e : Event) : Around s (s.emit e) := ⟨rfl, rfl, rfl, rfl, rfl, List.suffix_refl _⟩
theorem drawn (s : State) : Around s s.drawn := ⟨rfl, rfl, rfl, rfl, rfl, List.suffix_refl _⟩
theorem respond (s : State) (e : StepExit) (n : Nat) : Around s (s.respond e n) := emit s _
theorem emitStatusCalls (s : State) (w : Who) (sr : BitVec 32) : Around s (s.emitStatusCalls w sr) :=
  ⟨rfl, rfl, rfl, rfl, rfl, List.suffix_refl _⟩
theorem answerFreely (s : State) : Around s s.answerFreely := ⟨rfl, rfl, rfl, rfl, rfl, List.suffix_refl _⟩

theorem trans {s s' s'' : State} (h : Around s s') (h' : Around s' s'') : Around s s'' :=
  ⟨h'.cfg.trans h.cfg, h'.top.trans h.top, h'.lanes.trans h.lanes, h'.ctx.trans h.ctx, h'.commands.trans h.commands,
    h'.executions.trans h.executions⟩

theorem fetch (s : State) (w : Who) : Around s (s.fetch w).2 := by
  unfold State.fetch
  simp only
  split <;> exact ⟨rfl, rfl, rfl, rfl, rfl, List.suffix_refl _⟩

theorem badAddress (s : State) (w : Who) : Around s (s.badAddress w).2 := by
  unfold State.badAddress
  simp only
  split <;> exact ⟨rfl, rfl, rfl, rfl, rfl, List.suffix_refl _⟩

theorem execution (s : State) : Around s s.execution.2 := by
  unfold State.execution
  split
  · next h => exact ⟨rfl, rfl, rfl, rfl, rfl, by simp [h]⟩
  · exact drawn s

theorem nextDeliveries (s : State) : Around s s.nextDeliveries.2 := by
  unfold State.nextDeliveries
  split <;> exact ⟨rfl, rfl, rfl, rfl, rfl, List.suffix_refl _⟩

theorem nextLaneDeliveries (s : State) : Around s s.nextLaneDeliveries.2 := by
  unfold State.nextLaneDeliveries
  split <;> exact ⟨rfl, rfl, rfl, rfl, rfl, List.suffix_refl _⟩

theorem get {s s' : State} (h : Around s s') (w : Who) : s'.get w = s.get w := State.get_congr h.top h.lanes w

theorem proc? {s s' : State} (h : Around s s') (w : Who) : s'.proc? w = s.proc? w := by
  cases w <;> simp [h.top, h.lanes]

theorem reaches {s s' : State} (h : Around s s') : Reaches A s s' := .around .refl h

end Around

namespace Reaches

variable {s : State}

/-- One write to one live record. -/
theorem one (w : Who) (f : Proc → Proc) (hw : A w) (alive : (s.get w).fatal = false)
    (hf : UnitStep s.cfg (s.get w) (f (s.get w))) : Reaches A s (s.upd w f) := .unit .refl w f hw alive hf

theorem onTarget (t : Target) (k : Who → State) (hp : A s.presented)
    (hk : ∀ w, s.resolve t = some w → (s.get w).fatal = false → (s.get s.presented).fatal = false →
      Reaches A s (k w)) : Reaches A s (s.onTarget t k) := by
  unfold State.onTarget
  split
  · exact .refl
  · next h0 =>
    split
    · exact .latch .refl _ _ hp (by simpa using h0)
    · next w hr =>
      split
      · exact .refl
      · next h1 => exact hk w hr (by simpa using h1) (by simpa using h0)

theorem setStatus (w : Who) (v : BitVec 32) (hw : A w) (alive : (s.get w).fatal = false) :
    Reaches A s (s.setStatus w v) :=
  .around (one w _ hw alive (.setStatus v)) (.emitStatusCalls _ _ _)

theorem enterTrap (w : Who) (tracing : Bool) (c : Cause) (hw : A w) (alive : (s.get w).fatal = false) :
    Reaches A s (s.enterTrap w tracing c) := by
  unfold State.enterTrap
  split
  · exact .latch .refl _ _ hw alive
  · next hc =>
    simp only
    generalize hs1 : (if tracing = true then s.emit (.traceTrap (s.get w).id c (s.get w).pc) else s) = s1
    have h1 : Around s s1 := by
      subst hs1; split
      · exact .emit _ _
      · exact ⟨rfl, rfl, rfl, rfl, rfl, List.suffix_refl _⟩
    have h2 := h1.trans (.emitStatusCalls s1 w (trapEntryStatus (s.get w).sr &&& srCap s.cfg))
    have h3 := h2.trans (.badAddress _ w)
    refine .unit h3.reaches w _ hw (by rw [h3.get]; exact alive) ?_
    rw [h3.cfg]
    exact .enterTrap _ _ (by omega)

theorem resetOne (w : Who) (hw : A w) : Reaches A s (s.resetOne w) := by
  unfold State.resetOne
  split
  · exact .refl
  · next h => exact .around (one w _ hw (by simpa using h) .reset) (.emitStatusCalls _ _ _)

theorem resetLanesFrom (hA : ∀ i, A (.lane i)) (k : Nat) :
    ∀ (s : State) (i : Nat), Reaches A s (s.resetLanesFrom i k) := by
  induction k with
  | zero => intro s i; exact .refl
  | succ k ih => intro s i; exact (resetOne (.lane i) (hA i)).trans (ih _ _)

theorem resetUnit (w : Who) (hw : A w) (hA : w = .top → ∀ i, A (.lane i)) : Reaches A s (s.resetUnit w) := by
  unfold State.resetUnit
  split
  · exact .refl
  · cases w with
    | top => exact (resetOne .top hw).trans (resetLanesFrom (hA rfl) _ _ _)
    | lane i => exact resetOne _ hw

theorem closeStep (w : Who) (e : StepExit) (n : Nat) (hw : A w) (alive : (s.get w).fatal = false) :
    Reaches A s (s.closeStep w e n) :=
  .around (one w _ hw alive (.closeBatch n)) (.respond _ _ _)

theorem rejectOpcode (hp : A s.presented) : Reaches A s s.rejectOpcode := by
  unfold State.rejectOpcode
  split
  · exact .refl
  · next h => exact .latch .refl _ _ hp (by simpa using h)

theorem deliverTo (t : Target) (k : BitVec 3) (hp : A s.presented) (ht : ∀ w, s.resolve t = some w → A w) :
    Reaches A s (Machine.deliverTo t k s) :=
  onTarget t _ hp fun w hr alive _ => one w _ (ht w hr) alive (.deliver k)

theorem deliverUnit (w : Who) (k : BitVec 3) (hw : A w) : Reaches A s (Machine.deliverUnit w k s) := by
  unfold Machine.deliverUnit
  split
  · exact .refl
  · next h => exact one w _ hw (by simpa using h) (.deliver k)

theorem readAt (w : Who) (sel : BitVec 8) (hw : A w) (alive : (s.get w).fatal = false) :
    Reaches A s (Machine.readAt s w sel) := by
  unfold Machine.readAt
  split
  · exact (Around.emit _ _).reaches
  · exact .latch .refl _ _ hw alive

theorem readWhileFatal (w : Who) (sel : BitVec 8) : Reaches A s (Machine.readWhileFatal s w sel) := by
  unfold Machine.readWhileFatal
  split
  · exact (Around.emit _ _).reaches
  · exact (Around.answerFreely _).reaches

theorem writeCrAt (w : Who) (sel : BitVec 8) (v : Word) (hw : A w) (alive : (s.get w).fatal = false) :
    Reaches A s (Machine.writeCrAt s w sel v) := by
  unfold Machine.writeCrAt
  split
  · next p hp =>
    obtain ⟨r, -, hr⟩ := Option.bind_eq_some_iff.mp hp
    exact one w _ hw alive (.writeCr r v p hr)
  · exact .latch .refl _ _ hw alive

end Reaches

/-- The fourteen commands other than STEP, in any context: with `A` holding the presented record and whatever the
target names, and all lanes if that is the top-level processor, they reach their next state within `A`. -/
theorem runInstr_reaches {stepMeaning : Target → Bool → BitVec 64 → State → Result} {s s' : State} (i : Instr)
    (hp : A s.presented) (ht : ∀ t w, s.resolve t = some w → A w) (hl : A .top → ∀ i, A (.lane i))
    (hstep : ∀ t tr n, stepMeaning t tr n s = .next s' → Reaches A s s')
    (h : runInstr stepMeaning i s = .next s') : Reaches A s s' := by
  cases i with
  | step t tr n => exact hstep t tr n h
  | reset t =>
    simp only [runInstr, execReset, Host.Outcome.next.injEq] at h
    subst h
    refine .onTarget t _ hp fun w hr alive hpa => ?_
    have hreset : Reaches A s (s.resetUnit w) := .resetUnit w (ht _ w hr) fun hw => hl (hw ▸ ht _ w hr)
    cases hc : s.ctx with
    | idle => exact hreset
    | exec who tr =>
      simp only [State.presented, hc] at hp hpa
      cases t with
      | self => exact .latch .refl _ _ hp hpa
      | lane i => exact hreset
  | deliverIrq t k =>
    simp only [runInstr, execDeliverIrq, Host.Outcome.next.injEq] at h
    subst h; exact .deliverTo t k hp (ht t)
  | read t sel =>
    simp only [runInstr, execRead, Host.Outcome.next.injEq] at h
    subst h
    split
    · next w hr =>
      split
      · exact .readWhileFatal w sel
      · next hf => exact .readAt w sel (ht t w hr) (by simp_all)
    · split
      · exact (Around.answerFreely _).reaches
      · next hf => exact .latch .refl _ _ hp (by simpa using hf)
  | setStatus t v =>
    simp only [runInstr, execSetStatus, Host.Outcome.next.injEq] at h
    subst h; exact .onTarget t _ hp fun w hr alive _ => .setStatus w v (ht t w hr) alive
  | setFstatus t v =>
    simp only [runInstr, execSetFstatus, Host.Outcome.next.injEq] at h
    subst h
    exact .onTarget t _ hp fun w hr alive _ => .one w _ (ht t w hr) alive (.setFloatingStatus v)
  | writeCr t sel v =>
    simp only [runInstr, execWriteCr, Host.Outcome.next.injEq] at h
    subst h; exact .onTarget t _ hp fun w hr alive _ => .writeCrAt w sel v (ht t w hr) alive
  | clearPending t m =>
    simp only [runInstr, execClearPending, Host.Outcome.next.injEq] at h
    subst h; exact .onTarget t _ hp fun w hr alive _ => .one w _ (ht t w hr) alive (.clearPending m)
  | writeXpr t i v =>
    simp only [runInstr, execWriteXpr, Host.Outcome.next.injEq] at h
    subst h; exact .onTarget t _ hp fun w hr alive _ => .one w _ (ht t w hr) alive (.writeX i v)
  | writeFpr t i v =>
    simp only [runInstr, execWriteFpr, Host.Outcome.next.injEq] at h
    subst h; exact .onTarget t _ hp fun w hr alive _ => .one w _ (ht t w hr) alive (.writeF i v)
  | setVregs t x f =>
    simp only [runInstr, execSetVregs, Host.Outcome.next.injEq] at h
    subst h; exact .onTarget t _ hp fun w hr alive _ => .one w _ (ht t w hr) alive (.setVregs x f)
  | setBanks t m =>
    simp only [runInstr, execSetBanks, Host.Outcome.next.injEq] at h
    subst h; exact .onTarget t _ hp fun w hr alive _ => .one w _ (ht t w hr) alive (.setBanks m)
  | recomputeVlmax t =>
    simp only [runInstr, execRecomputeVlmax, Host.Outcome.next.injEq] at h
    subst h; exact .onTarget t _ hp fun w hr alive _ => .one w _ (ht t w hr) alive .recomputeVlmax
  | setVl t v =>
    simp only [runInstr, execSetVl, Host.Outcome.next.injEq] at h
    subst h; exact .onTarget t _ hp fun w hr alive _ => .one w _ (ht t w hr) alive (.setVl v)
  | start t v =>
    simp only [runInstr, execStart, Host.Outcome.next.injEq] at h
    subst h
    refine .onTarget t _ hp fun w hr alive hpa => ?_
    cases t with
    | self => exact .latch .refl _ _ hp hpa
    | lane i =>
      have hA := ht _ w hr
      simp only [State.resolve] at hr
      split at hr
      · cases hr; exact .start .refl i v hA alive
      · cases hr

/-- One command word, legal or not. -/
theorem runWord_reaches {stepMeaning : Target → Bool → BitVec 64 → State → Result} {s s' : State} (c : CommandWord)
    (hp : A s.presented) (ht : ∀ t w, s.resolve t = some w → A w) (hl : A .top → ∀ i, A (.lane i))
    (hstep : ∀ t tr n, stepMeaning t tr n s = .next s' → Reaches A s s')
    (h : runWord stepMeaning c s = .next s') : Reaches A s s' := by
  unfold runWord at h
  split at h
  · exact runInstr_reaches _ hp ht hl hstep h
  · cases h; exact .rejectOpcode hp

/-- What `andThen` can answer. -/
theorem andThen_next {r : Result} {k : State → Result} {s' : State} (h : andThen r k = .next s') :
    ∃ s, r = .next s ∧ k s = .next s' := by
  cases r with
  | next s => exact ⟨s, rfl, h⟩
  | fault e => cases h
  | refused e => cases h

/-- Commands a handler issues, one after the other, in the context of the record `w`. -/
theorem runCommands_reaches {stepMeaning : Target → Bool → BitVec 64 → State → Result} {w : Who} {tracing : Bool}
    (hp : A w) (ht : ∀ (s : State) t v, s.ctx = .exec w tracing → s.resolve t = some v → A v)
    (hl : A .top → ∀ i, A (.lane i))
    (hstep : ∀ t tr n (s s' : State), s.ctx = .exec w tracing → stepMeaning t tr n s = .next s' → Reaches A s s')
    (ws : List CommandWord) :
    ∀ (s s' : State), s.ctx = .exec w tracing → runCommands stepMeaning ws s = .next s' → Reaches A s s' := by
  induction ws with
  | nil => intro s s' _ h; simp only [runCommands, Host.Outcome.next.injEq] at h; exact h ▸ .refl
  | cons c ws ih =>
    intro s s' hc h
    have hpres : A s.presented := by simpa [State.presented, hc] using hp
    obtain ⟨s1, hr, h⟩ := andThen_next h
    have h1 : Reaches A s s1 :=
      runWord_reaches c hpres (fun t v => ht s t v hc) hl (fun t tr n => hstep t tr n s s1 hc) hr
    exact h1.trans (ih s1 s' (h1.around_keeps.2.1.trans hc) h)

/-- What an iteration can end in, and that its states are reached. -/
structure IterationReaches (A : Who → Prop) (w : Who) (s : State) (r : Iteration) : Prop where
  retired : ∀ s', r = .retired s' → Reaches A s s' ∧ (s'.get w).fatal = false
  laneComplete : ∀ s', r = .laneComplete s' → Reaches A s s' ∧ (s'.get w).fatal = false
  halted : ∀ s', r = .halted s' → Reaches A s s'
  fatal : ∀ s', r = .fatal s' → Reaches A s s'

theorem trapIteration_reaches {w : Who} {tracing : Bool} {c : Cause} {s : State} (hw : A w)
    (alive : (s.get w).fatal = false) : IterationReaches A w s (trapIteration w tracing c s) := by
  have h := Reaches.enterTrap (A := A) w tracing c hw alive
  unfold trapIteration
  constructor <;> intro s' hs <;> simp only at hs <;> split at hs <;> cases hs
  · next hf => exact ⟨h, by simpa using hf⟩
  · exact h

theorem finishIteration_reaches {w : Who} {tracing : Bool} {o : HandlerOutcome} {s : State} (hw : A w)
    (hl : w = .top → ∀ i, A (.lane i)) (alive : (s.get w).fatal = false) :
    IterationReaches A w s (finishIteration w tracing o s) := by
  cases o with
  | trap c => exact trapIteration_reaches hw alive
  | continueAt npc =>
    simp only [finishIteration]
    constructor <;> intro s' hs <;> cases hs
    refine ⟨.one w _ hw alive (.writePc npc), ?_⟩
    rw [State.get_upd_field Proc.fatal s w w (fun p => { p with pc := npc }) (fun _ => rfl)]
    exact alive
  | laneComplete =>
    simp only [finishIteration]
    constructor <;> intro s' hs <;> split at hs <;> cases hs
    · exact ⟨.refl, alive⟩
    · exact .latch .refl _ _ hw alive
  | halt =>
    simp only [finishIteration]
    constructor <;> intro s' hs <;> cases hs
    exact .resetUnit w hw hl

/-- What a handler's STEP may reach, in the context of the record whose handler runs. -/
abbrev HandlerSteps (A : Who → Prop) (w : Who) (tracing : Bool)
    (stepMeaning : Target → Bool → BitVec 64 → State → Result) : Prop :=
  ∀ t tr n (s s' : State), s.ctx = .exec w tracing → stepMeaning t tr n s = .next s' → Reaches A s s'

/-- What the targets of the commands a handler issues may name. -/
abbrev HandlerTargets (A : Who → Prop) (w : Who) (tracing : Bool) : Prop :=
  ∀ (s : State) t v, s.ctx = .exec w tracing → s.resolve t = some v → A v

theorem IterationReaches.after {w : Who} {s s1 : State} {r : Iteration} (h1 : Reaches A s s1)
    (h : IterationReaches A w s1 r) : IterationReaches A w s r where
  retired s' hr := ⟨h1.trans (h.retired s' hr).1, (h.retired s' hr).2⟩
  laneComplete s' hr := ⟨h1.trans (h.laneComplete s' hr).1, (h.laneComplete s' hr).2⟩
  halted s' hr := h1.trans (h.halted s' hr)
  fatal s' hr := h1.trans (h.fatal s' hr)

theorem executePhase_reaches {stepMeaning : Target → Bool → BitVec 64 → State → Result} {w : Who} {tracing : Bool}
    {insn : InsnWord} {h : HandlerToken} {s : State} (hw : A w) (ht : HandlerTargets A w tracing)
    (hl : A .top → ∀ i, A (.lane i)) (hstep : HandlerSteps A w tracing stepMeaning) :
    IterationReaches A w s (executePhase stepMeaning w tracing insn h s) := by
  unfold executePhase
  simp only
  have h0 : Around s (s.emit (.callHandler w h insn (s.get w).pc)).execution.2 := (Around.emit _ _).trans (.execution _)
  generalize (s.emit (.callHandler w h insn (s.get w).pc)).execution = r at h0
  split
  · next s' hrun =>
    have hrun := runCommands_reaches hw ht hl hstep r.1.commands _ s' rfl hrun
    have h1 : Reaches A s { s' with ctx := s.ctx } := by
      have h2 := hrun.setCtx s.ctx
      have h3 : ({ r.2 with ctx := s.ctx } : State) = r.2 := by rw [← h0.ctx]
      simp only at h2
      rw [h3] at h2
      exact h0.reaches.trans h2
    split
    · constructor <;> intro s'' hs <;> cases hs
    · split
      · constructor <;> intro s'' hs <;> cases hs
        exact h1
      · next hf =>
        exact .after h1 (finishIteration_reaches hw (fun hw' => hl (hw' ▸ hw)) (by simpa using hf))
  · constructor <;> intro s'' hs <;> cases hs
  · constructor <;> intro s'' hs <;> cases hs

theorem landDeliveries_reaches {w : Who} {s : State} (hw : A w)
    (hp : w = .top → A s.presented ∧ ∀ s' : State, s'.ctx = s.ctx → ∀ t v, s'.resolve t = some v → A v) :
    Reaches A s (landDeliveries w s) := by
  cases w with
  | top =>
    obtain ⟨hp, ht⟩ := hp rfl
    have key : ∀ (ds : List Delivery) (s1 : State), s1.ctx = s.ctx →
        Reaches A s1 (ds.foldl (fun s' d => deliverTo d.target d.kind s') s1) := by
      intro ds
      induction ds with
      | nil => intro s1 _; exact .refl
      | cons d ds ih =>
        intro s1 hc
        have h1 : Reaches A s1 (deliverTo d.target d.kind s1) :=
          .deliverTo _ _ (by simpa [State.presented, hc] using hp) (ht s1 hc _)
        exact h1.trans (ih _ (h1.around_keeps.2.1.trans hc))
    have h0 := Around.nextDeliveries s
    exact h0.reaches.trans (key _ _ h0.ctx)
  | lane i =>
    have key : ∀ (ks : List (BitVec 3)) (s1 : State),
        Reaches A s1 (ks.foldl (fun s' k => deliverUnit (.lane i) k s') s1) := by
      intro ks
      induction ks with
      | nil => intro s1; exact .refl
      | cons k ks ih => intro s1; exact (Reaches.deliverUnit (.lane i) k hw).trans (ih _)
    exact (Around.nextLaneDeliveries s).reaches.trans (key _ _)

/-- The context a record's STEP runs in admits the deliveries of the harness: only the top-level loop has any that are
addressed, and it runs in a context whose targets are all in `A`. -/
abbrev DeliveryTargets (A : Who → Prop) (w : Who) (c : Context) : Prop :=
  w = .top → ∀ s : State, s.ctx = c → A s.presented ∧ ∀ t v, s.resolve t = some v → A v

theorem iterate_reaches {stepMeaning : Target → Bool → BitVec 64 → State → Result} {w : Who} {tracing : Bool}
    {s : State} (hw : A w) (hd : DeliveryTargets A w s.ctx) (ht : HandlerTargets A w tracing)
    (hl : A .top → ∀ i, A (.lane i)) (hstep : HandlerSteps A w tracing stepMeaning) :
    IterationReaches A w s (iterate stepMeaning w tracing s) := by
  unfold iterate
  have h0 : Reaches A s (landDeliveries w s) :=
    landDeliveries_reaches hw fun h => ⟨(hd h s rfl).1, fun s' hc => (hd h s' hc).2⟩
  generalize landDeliveries w s = s1 at h0
  refine .after h0 ?_
  simp only
  split
  · constructor <;> intro s'' hs <;> cases hs
    exact .refl
  · next alive =>
    split
    · exact trapIteration_reaches hw (by simpa using alive)
    · have hf := Around.fetch s1 w
      split
      · exact .after hf.reaches (trapIteration_reaches hw (by rw [hf.get]; simpa using alive))
      · refine .after hf.reaches ?_
        split
        · exact .after (Around.emit _ _).reaches (executePhase_reaches hw ht hl hstep)
        · exact executePhase_reaches hw ht hl hstep

theorem loop_reaches {stepMeaning : Target → Bool → BitVec 64 → State → Result} {w : Who} {tracing : Bool}
    (hw : A w) (ht : HandlerTargets A w tracing) (hl : A .top → ∀ i, A (.lane i))
    (hstep : HandlerSteps A w tracing stepMeaning) (k : Nat) :
    ∀ (n : Nat) (s s' : State), DeliveryTargets A w s.ctx → (s.get w).fatal = false →
      loop stepMeaning w tracing k n s = .next s' → Reaches A s s' := by
  induction k with
  | zero =>
    intro n s s' _ alive h
    simp only [loop, Host.Outcome.next.injEq] at h
    exact h ▸ .closeStep w _ _ hw alive
  | succ k ih =>
    intro n s s' hd alive h
    have hi := iterate_reaches (s := s) hw hd ht hl hstep
    simp only [loop] at h
    split at h
    · next s1 hs =>
      obtain ⟨h1, alive1⟩ := hi.retired s1 hs
      exact h1.trans (ih (n + 1) s1 s' (h1.around_keeps.2.1 ▸ hd) alive1 h)
    · next s1 hs =>
      obtain ⟨h1, alive1⟩ := hi.laneComplete s1 hs
      cases h; exact h1.trans (.closeStep w _ _ hw alive1)
    · next s1 hs => cases h; exact (hi.halted s1 hs).trans (Around.respond _ _ _).reaches
    · next s1 hs => cases h; exact (hi.fatal s1 hs).trans (Around.respond _ _ _).reaches
    · cases h
    · cases h

theorem stepUnit_reaches {stepMeaning : Target → Bool → BitVec 64 → State → Result} {w : Who} {tracing : Bool}
    {n : Nat} {s s' : State} (hw : A w) (hd : DeliveryTargets A w s.ctx) (ht : HandlerTargets A w tracing)
    (hl : A .top → ∀ i, A (.lane i)) (hstep : HandlerSteps A w tracing stepMeaning)
    (h : stepUnit stepMeaning w tracing n s = .next s') : Reaches A s s' := by
  unfold stepUnit at h
  split at h
  · cases h; exact (Around.respond _ _ _).reaches
  · next alive =>
    split at h
    · exact loop_reaches hw ht hl hstep n 0 s s' hd (by simpa using alive) h
    · cases h; exact (Around.respond _ _ _).reaches

theorem refuseStep_reaches {reason : FatalReason} {s s' : State} (hp : A s.presented)
    (h : refuseStep reason s = .next s') : Reaches A s s' := by
  unfold refuseStep at h
  split at h
  · cases h; exact (Around.respond _ _ _).reaches
  · next hf =>
    cases h
    exact .around (.latch .refl _ _ hp (by simpa using hf)) (.respond _ _ _)

theorem stepFromLane_reaches {t : Target} {tr : Bool} {n : BitVec 64} {s s' : State} (hp : A s.presented)
    (h : stepFromLane t tr n s = .next s') : Reaches A s s' := by
  cases t <;> exact refuseStep_reaches hp h

/-- A lane's STEP reaches its next state by writes to that lane alone, and by the owner's latch. -/
theorem stepUnit_lane_reaches {i : Nat} {tracing : Bool} {n : Nat} {s s' : State}
    (h : stepUnit stepFromLane (.lane i) tracing n s = .next s') : Reaches (fun w => w = .lane i) s s' := by
  refine stepUnit_reaches (A := fun w => w = .lane i) rfl (fun hw => by cases hw) ?_ (fun hw => by cases hw) ?_ h
  · intro s t v hc hr
    have hp : s.presented = .lane i := by simp [State.presented, hc]
    cases t with
    | self => simpa [State.resolve, hp, eq_comm] using hr
    | lane j => simp [State.resolve, hp] at hr
  · intro t tr n s s' hc hs
    exact stepFromLane_reaches (by simp [State.presented, hc]) hs

theorem stepLane_reaches {i : Nat} {tracing : Bool} {n : BitVec 64} {s s' : State} (hp : A s.presented)
    (hi : A (.lane i)) (h : stepLane i tracing n s = .next s') : Reaches A s s' := by
  unfold stepLane at h
  split at h
  · cases h; exact (Around.respond _ _ _).reaches
  · split at h
    · exact (stepUnit_lane_reaches h).mono fun w (hw : w = .lane i) => by rw [hw]; exact hi
    · exact refuseStep_reaches hp h

/-- STEP, in any context. -/
theorem execStep_reaches {t : Target} {tr : Bool} {n : BitVec 64} {s s' : State}
    (h : execStep t tr n s = .next s') : Reaches (fun _ => True) s s' := by
  unfold execStep at h
  split at h
  · cases t with
    | self =>
      refine stepUnit_reaches (A := fun _ => True) trivial (fun _ _ _ => ⟨trivial, fun _ _ _ => trivial⟩)
        (fun _ _ _ _ _ => trivial) (fun _ _ => trivial) ?_ h
      intro t tr' m s s' _ hs
      cases t with
      | self => exact refuseStep_reaches trivial hs
      | lane i => exact stepLane_reaches trivial trivial hs
    | lane i => exact stepLane_reaches trivial trivial h
  · cases t with
    | self => exact refuseStep_reaches trivial h
    | lane i => exact stepLane_reaches trivial trivial h
  · exact stepFromLane_reaches trivial h

/-- `exec` is `runInstr` with its own meaning of STEP. -/
theorem exec_eq_runInstr (i : Instr) (s : State) : exec i s = runInstr execStep i s := by cases i <;> rfl

/-- Every command that answers a next state reaches it by the few kinds of writes. -/
theorem exec_reaches {i : Instr} {s s' : State} (h : exec i s = .next s') : Reaches (fun _ => True) s s' := by
  rw [exec_eq_runInstr] at h
  exact runInstr_reaches i trivial (fun _ _ _ => trivial) (fun _ _ => trivial)
    (fun _ _ _ hs => execStep_reaches hs) h

/-- So does every step of the machine, but for the word it takes off the command port. -/
theorem step_reaches {s s' : State} (h : step s = .next s') :
    s' = s ∨ ∃ w rest, s.commands = w :: rest ∧ Reaches (fun _ => True) { s with commands := rest } s' := by
  unfold step at h
  split at h
  · cases h; exact .inl rfl
  · next w rest hc =>
    refine .inr ⟨w, rest, hc, ?_⟩
    split at h
    · exact exec_reaches h
    · cases h; exact .rejectOpcode trivial

end Sys2Proof.Machine
end

