-- ==== Sys2Proof/Laws/Loop.lean ====
section
/-! SUPPORT. The execution loop and RESET, one lemma per shared operation: where an accepted command acts, what a STEP
is when it is allowed, one iteration when nothing interrupts, one handler that issues no command, and what RESET leaves
in each record. -/

namespace Sys2Proof.Machine

/-- An accepted command runs on the record it names. -/
theorem onTarget_accepts {s : State} {t : Target} {w : Who} (h : s.Accepts t w) (k : Who → State) :
    s.onTarget t k = k w := by
  simp [State.onTarget, h.presented_alive, h.resolves, h.alive]

/-- A STEP the harness issues, or an owner's handler issues for a lane, runs the loop on the record it names; from the
harness with the tracing flag of the command. -/
theorem exec_step_accepts {s : State} {t : Target} {w : Who} (h : s.Accepts t w) (hc : s.ctx = .idle ∨ t ≠ .self)
    (tracing : Bool) (n : BitVec 64) :
    ∃ f tracing', exec (.step t tracing n) s = stepUnit f w tracing' n.toNat s ∧ (s.ctx = .idle → tracing' = tracing) := by
  obtain ⟨h1, h2, h3, h4⟩ := h
  unfold State.resolve at h2
  cases hx : s.ctx with
  | idle =>
    have hp : s.presented = .top := by simp [State.presented, hx]
    cases t with
    | self =>
      simp only [hp, Option.some.injEq] at h2
      subst h2
      exact ⟨_, _, by simp only [exec, execStep, hx, stepFromHarness]; rfl, fun _ => rfl⟩
    | lane i =>
      simp only [hp, true_and] at h2
      split at h2
      · cases h2
        refine ⟨stepFromLane, tracing, ?_, fun _ => rfl⟩
        simp only [exec, execStep, hx, stepFromHarness, stepLane, h1]
        simp [*]
      · cases h2
  | exec who ownerTracing =>
    cases t with
    | self => simp [hx] at hc
    | lane i =>
      simp only at h2
      split at h2
      · cases h2
        rename_i hh
        have : who = .top := by simpa [State.presented, hx] using hh.1
        subst this
        refine ⟨stepFromLane, ownerTracing, ?_, fun h => by cases h⟩
        simp only [exec, execStep, hx, stepFromTop, stepLane, h1]
        simp [hh.2]
      · cases h2

/-- With a budget, a running record's STEP is one iteration and then the rest of the loop. -/
theorem stepUnit_succ {f : Target → Bool → BitVec 64 → State → Result} {w : Who} {tracing : Bool} {s : State} {n : Nat}
    (hr : (s.get w).run = true) (hf : (s.get w).fatal = false) :
    stepUnit f w tracing (n + 1) s = match iterate f w tracing s with
      | .retired s' => loop f w tracing n 1 s'
      | .laneComplete s' => .next (s'.closeStep w .laneComplete 0)
      | .halted s' => .next (s'.respond .halted 0)
      | .fatal s' => .next (s'.respond .fatal 0)
      | .stopped e => .fault e
      | .refused e => .refused e := by
  unfold stepUnit; simp only [hr, hf]; rfl

theorem landDeliveries_none {w : Who} {s : State} (h1 : s.deliveries = []) (h2 : s.laneDeliveries = []) :
    landDeliveries w s = s := by
  cases w <;> simp [landDeliveries, State.nextDeliveries, State.nextLaneDeliveries, h1, h2]

/-- No interrupt is signalled when ET is clear or no line is both pending and enabled. -/
theorem takeInterruptIfAny_none {p : Proc} (h : srET p.sr = false ∨ p.pending &&& srIM p.sr = 0) :
    takeInterruptIfAny p = none := by
  unfold takeInterruptIfAny
  rcases h with h | h
  · simp [h]
  · rw [h]; simp [lowbit]

/-- An interrupt's cause is a recognised one. -/
theorem takeInterruptIfAny_lt {p : Proc} {c : Cause} (h : takeInterruptIfAny p = some c) : c.toNat < 24 := by
  unfold takeInterruptIfAny lowbit at h
  split at h
  · simp only [Option.map_eq_some_iff] at h
    obtain ⟨a, ha, rfl⟩ := h
    have := List.mem_of_find?_eq_some ha
    simp at this
    simp [irqCauseBase]; omega
  · cases h

/-- An iteration with nothing delivered and no interrupt to take starts with the fetch. -/
theorem iterate_quiet {f : Target → Bool → BitVec 64 → State → Result} {w : Who} {tracing : Bool} {s : State}
    (hq : s.Quiet w) (hf : (s.get w).fatal = false) :
    iterate f w tracing s =
      match (s.fetch w).1 with
      | .fetchFault c => trapIteration w tracing c (s.fetch w).2
      | .fetched insn h =>
        executePhase f w tracing insn h
          (if tracing then
            (s.fetch w).2.emit (.traceInsn ((s.fetch w).2.get w).id ((s.fetch w).2.get w).pc insn)
          else (s.fetch w).2) := by
  unfold iterate
  rw [landDeliveries_none hq.1 hq.2]
  simp only [hf, takeInterruptIfAny_none hq.4]
  rfl

/-- The commands a handler issues, where its interpreter means what `exec` means. -/
theorem runCommands_of_issues {f : Target → Bool → BitVec 64 → State → Result} {c : Context}
    (hf : ∀ i (s : State), s.ctx = c → runInstr f i s = exec i s) {s1 : State} :
    ∀ (is : List Instr) (ws : List CommandWord) (s : State), s.ctx = c → ws.map decode = is.map .ok →
      State.Issues is s s1 → runCommands f ws s = .next s1
  | [], ws, s, _, hd, hi => by
    cases ws with
    | nil => exact congrArg _ hi.symm
    | cons => cases hd
  | i :: is, ws, s, hc, hd, hi => by
    cases ws with
    | nil => cases hd
    | cons w ws =>
      obtain ⟨s2, hx, hi⟩ := hi
      obtain ⟨hw, hd⟩ := List.cons.inj hd
      have hc2 : s2.ctx = c := (exec_reaches hx).around_keeps.2.1.trans hc
      simp only [runCommands, runWord, hw, hf i s hc, hx, andThen]
      exact runCommands_of_issues hf is ws s2 hc2 hd hi

/-- The execute phase: the handler's commands, then its outcome unless its record is fatal by then. -/
theorem executePhase_of_issues {f : Target → Bool → BitVec 64 → State → Result} {w : Who} {tracing : Bool}
    (hf : ∀ i (s : State), s.ctx = .exec w tracing → runInstr f i s = exec i s)
    {insn : InsnWord} {h : HandlerToken} {s s1 : State} {ws : List CommandWord} {is : List Instr} {ow : OutcomeWord}
    {es : List Execution} (hs : s.executions = { commands := ws, outcome := some ow } :: es)
    (hd : ws.map decode = is.map .ok)
    (hi : State.Issues is
      { s.emit (.callHandler w h insn (s.get w).pc) with executions := es, ctx := .exec w tracing } s1) :
    executePhase f w tracing insn h s =
      if (s1.get w).fatal then .fatal { s1 with ctx := s.ctx }
      else finishIteration w tracing (decodeOutcome ow) { s1 with ctx := s.ctx } := by
  unfold executePhase State.execution
  have hg : ({ s1 with ctx := s.ctx } : State).get w = s1.get w := State.get_congr rfl rfl _
  simp only [State.emit_executions, hs, runCommands_of_issues hf is ws _ rfl hd hi, hg]

/-- An iteration with nothing delivered and no interrupt to take, as the collaborators' scripts have it. -/
theorem iterate_of_executes {f : Target → Bool → BitVec 64 → State → Result} {w : Who} {tracing : Bool}
    (hf : ∀ i (s : State), s.ctx = .exec w tracing → runInstr f i s = exec i s) {s s1 : State} {o : HandlerOutcome}
    (hq : s.Quiet w) (alive : (s.get w).fatal = false) (he : s.Executes w tracing s1 o) :
    iterate f w tracing s =
      if (s1.get w).fatal then .fatal { s1 with ctx := s.ctx }
      else finishIteration w tracing o { s1 with ctx := s.ctx } := by
  obtain ⟨fw, fs, insn, h, ws, is, ow, es, h1, h2, h3, rfl, hd, hi⟩ := he
  have hg : ∀ fs', ({ s.emit (.fetchInstruction w (s.get w).pc (srEC (s.get w).sr)) with fetches := fs' } : State).get w =
      s.get w := fun _ => State.get_congr rfl rfl _
  have hga : ({ s with fetches := fs, executions := es } : State).get w = s.get w := State.get_congr rfl rfl _
  rw [iterate_quiet hq alive]
  simp only [State.fetch, State.emit_fetches, h1, h2, hg]
  unfold State.atHandler at hi
  rw [hga] at hi
  cases tracing with
  | false =>
    refine executePhase_of_issues hf (es := es) h3 hd ?_
    rw [if_neg Bool.false_ne_true, hg]
    exact hi
  | true =>
    refine executePhase_of_issues hf (es := es) h3 hd ?_
    rw [if_pos rfl, State.emit_get, hg]
    exact hi

/-- The deliveries that land at a boundary are the commands DELIVER_IRQ of `arriving`, in order. -/
theorem landDeliveries_of_issues {s s1 : State} {t : Target} {w : Who} (h : s.Accepts t w)
    (hc : s.ctx = .idle ∨ t ≠ .self) (hi : State.Issues (s.arriving w) (s.pastArrivals w) s1) :
    landDeliveries w s = s1 := by
  cases w with
  | top =>
    have key : ∀ (ds : List Delivery) (s : State),
        State.Issues (ds.map fun d => Instr.deliverIrq d.target d.kind) s s1 →
        ds.foldl (fun s' d => deliverTo d.target d.kind s') s = s1 := by
      intro ds
      induction ds with
      | nil => intro s hi; exact hi.symm
      | cons d ds ih =>
        rintro s ⟨s2, hx, hi⟩
        cases hx
        exact ih _ hi
    cases hds : s.deliveries with
    | nil =>
      have hs : s.pastArrivals .top = s := by cases s; cases hds; rfl
      simp only [State.arriving, hds, List.headD_nil, List.map_nil] at hi
      rw [hs] at hi
      simp only [landDeliveries, State.nextDeliveries, hds]
      exact hi.symm
    | cons ds rest =>
      simp only [State.arriving, State.pastArrivals, hds, List.headD_cons, List.tail_cons] at hi
      simp only [landDeliveries, State.nextDeliveries, hds]
      exact key ds _ hi
  | lane i =>
    obtain ⟨hpres, hlt⟩ : s.presented = .top ∧ i < s.cfg.maxLanes := by
      have hr := h.resolves
      cases t with
      | self =>
        have hx : s.ctx = .idle := by simpa using hc
        simp [State.resolve, State.presented, hx] at hr
      | lane j =>
        simp only [State.resolve] at hr
        split at hr
        · cases hr; assumption
        · cases hr
    have key : ∀ (ks : List (BitVec 3)) (s : State), s.presented = .top → i < s.cfg.maxLanes → s.top.fatal = false →
        State.Issues (ks.map fun k => Instr.deliverIrq (.lane i) k) s s1 →
        ks.foldl (fun s' k => deliverUnit (.lane i) k s') s = s1 := by
      intro ks
      induction ks with
      | nil => intro s _ _ _ hi; exact hi.symm
      | cons k ks ih =>
        rintro s hp hl hf ⟨s2, hx, hi⟩
        have he : deliverTo (.lane i) k s = deliverUnit (.lane i) k s := by
          have hf' : (s.get .top).fatal = false := hf
          simp only [deliverTo, State.onTarget, State.resolve, hp, hf', hl, deliverUnit]
          rfl
        cases hx
        rw [he] at hi
        obtain ⟨hu1, hu2, hu3⟩ : (deliverUnit (.lane i) k s).ctx = s.ctx ∧ (deliverUnit (.lane i) k s).cfg = s.cfg ∧
            (deliverUnit (.lane i) k s).top = s.top := by
          unfold deliverUnit
          split <;> simp
        exact ih (deliverUnit (.lane i) k s) (by rw [State.presented, hu1]; exact hp) (by rw [hu2]; exact hl)
          (by rw [hu3]; exact hf) hi
    have hf : s.top.fatal = false := by have := h.presented_alive; rw [hpres] at this; exact this
    cases hds : s.laneDeliveries with
    | nil =>
      have hs : s.pastArrivals (.lane i) = s := by cases s; cases hds; rfl
      simp only [State.arriving, hds, List.headD_nil, List.map_nil] at hi
      rw [hs] at hi
      simp only [landDeliveries, State.nextLaneDeliveries, hds]
      exact hi.symm
    | cons ks rest =>
      simp only [State.arriving, State.pastArrivals, hds, List.headD_cons, List.tail_cons] at hi
      simp only [landDeliveries, State.nextLaneDeliveries, hds]
      exact key ks _ hpres hlt hf hi

/-- A word placed by `withFetchWord` is the command the very next step runs (log entry 9). -/
theorem step_withFetchWord {s : State} {nbits w : Nat} {i : Instr} (h : decodeTableWord nbits w = some i) :
    step (s.withFetchWord nbits w) = exec i s := by
  unfold decodeTableWord at h
  split at h
  · rename_i j hj
    cases h
    simp only [step, State.withFetchWord, hj]
  · cases h

/-- Closing a batch that retired nothing changes nothing (R177 (a)). -/
@[simp] theorem Proc.closeBatch_zero (p : Proc) : p.closeBatch 0 = p := by
  have h : ¬(p.count.toNat < p.compare.toNat ∧ p.compare.toNat ≤ p.count.toNat) := by omega
  simp only [Proc.closeBatch, Proc.timerUpdate, Nat.add_zero, BitVec.ofNat_toNat, BitVec.setWidth_eq]
  simp [h]

/-- RESET of one record leaves R60's values, or nothing of a fatal one. -/
theorem Proc.reset_eq_atReset (c : Config) (p : Proc) : p.reset c = if p.fatal then p else Proc.atReset c p := by
  unfold Proc.reset
  split
  · rfl
  · rename_i h
    cases p; rename_i f; cases f
    · rfl
    · simp at h

/-- RESET of one record writes that record only, besides what it emits. -/
theorem State.resetOne_eq (s : State) (w : Who) :
    s.resetOne w = if (s.get w).fatal then s
      else (s.upd w (Proc.reset s.cfg)).emitStatusCalls w ((s.get w).resetRaw s.cfg &&& srCap s.cfg) := rfl

end Sys2Proof.Machine
end

