-- ==== Sys2Proof/Laws/PerInstr.lean ====
section
/-! SUPPORT. The family EncodeOpcode: the word of every command carries the opcode of its row (R93). -/

namespace Sys2Proof.Laws.EncodeOpcode

/-- The `op` field of the command's word is its opcode. -/
def Statement (i : Instr) : Prop := fieldOp (encode i) = i.opcode

theorem reset (t : Target) : Statement (.reset t) := fieldOp_packCommand ..
theorem step (t : Target) (tracing : Bool) (n : BitVec 64) : Statement (.step t tracing n) := fieldOp_packCommand ..
theorem deliverIrq (t : Target) (kind : BitVec 3) : Statement (.deliverIrq t kind) := fieldOp_packCommand ..
theorem read (t : Target) (sel : BitVec 8) : Statement (.read t sel) := fieldOp_packCommand ..
theorem setStatus (t : Target) (value : BitVec 32) : Statement (.setStatus t value) := fieldOp_packCommand ..
theorem setFstatus (t : Target) (value : BitVec 32) : Statement (.setFstatus t value) := fieldOp_packCommand ..
theorem writeCr (t : Target) (sel : BitVec 8) (value : BitVec 64) : Statement (.writeCr t sel value) :=
  fieldOp_packCommand ..
theorem clearPending (t : Target) (mask : BitVec 8) : Statement (.clearPending t mask) := fieldOp_packCommand ..
theorem writeXpr (t : Target) (index : BitVec 5) (value : BitVec 64) : Statement (.writeXpr t index value) :=
  fieldOp_packCommand ..
theorem writeFpr (t : Target) (index : BitVec 5) (value : BitVec 64) : Statement (.writeFpr t index value) :=
  fieldOp_packCommand ..
theorem setVregs (t : Target) (nxpr nfpr : BitVec 6) : Statement (.setVregs t nxpr nfpr) := fieldOp_packCommand ..
theorem setBanks (t : Target) (mask : BitVec 16) : Statement (.setBanks t mask) := fieldOp_packCommand ..
theorem recomputeVlmax (t : Target) : Statement (.recomputeVlmax t) := fieldOp_packCommand ..
theorem setVl (t : Target) (requested : BitVec 64) : Statement (.setVl t requested) := fieldOp_packCommand ..
theorem start (t : Target) (target : BitVec 64) : Statement (.start t target) := fieldOp_packCommand ..

end Sys2Proof.Laws.EncodeOpcode
end

