-- ==== Sys2Proof/Machine/PseudoOps.lean ====
section
/-! DEFINITION. The pseudo-operations (R102), each an abbreviation with its expansion into commands; TRAP_RETURN, whose
expansion depends on the state it runs in, is `State.trapReturn` of Machine/Ops.lean. -/

namespace Sys2Proof.Machine

/-- `WAKE`: `DELIVER_IRQ 5` (R102). -/
def wake (t : Target) : List Instr := [.deliverIrq t (BitVec.ofNat 3 ipiIrq)]

/-- `ACK_TIMER`: `CLEAR_PENDING 0x80` (R102). -/
def ackTimer (t : Target) : List Instr := [.clearPending t (irqBit timerIrq)]

/-- `VCFG x, f`: `SET_VREGS x, f`, then `RECOMPUTE_VLMAX` (R102). -/
def vcfg (t : Target) (x f : BitVec 6) : List Instr := [.setVregs t x f, .recomputeVlmax t]

/-- `LANE_STEP i, n`: `STEP@i n` (R102). -/
def laneStep (i : Nat) (n : BitVec 64) : List Instr := [.step (.lane i) false n]

end Sys2Proof.Machine
end

