-- ==== Sys2Proof/Tests/Slice0.lean ====
section
/-! SUPPORT. Tests, their expected values from 95_test_vectors.md (the vector is named in each), and for every statement
with hypotheses a concrete state that meets them. -/

namespace Sys2Proof.Tests

open Sys2Proof Sys2Proof.Machine

/-! ### Small states -/

/-- The common configuration of the vectors with four lanes. -/
def cfg4 : Config := { Config.standard with maxLanes := 4 }

/-- "Fresh": right after construction. -/
def fresh : State := State.construct cfg4

/-- Fresh with another top-level record. -/
def fresh.withTop (f : Proc → Proc) : State := { fresh with top := f fresh.top }

/-- The given start state of section 2.3: awake and quiet, `pc = 0x1000`, `evec = 0x2000`. -/
def awake : State := fresh.withTop fun p => { p with run := true, pc := 0x1000, evec := 0x2000 }

/-- Lane 0 awake at `0x3000`. -/
def laneAwake : State := fresh.upd (.lane 0) (Proc.start 0x3000)

/-- `s` with a fetch that answers an instruction, and a handler that issues `cs` and returns `o`. -/
def scripted (s : State) (cs : List Instr) (o : HandlerOutcome) : State :=
  { s with
    fetches := [0x200000026]
    executions := [{ commands := cs.map encode, outcome := some (encodeOutcome o) }]
    badAddrs := [0xB] }

/-- A fatal top-level record. -/
def dead : State := fresh.withTop fun p => { p with fatal := true }

/-- Inside the execute phase of the record `w`. -/
def inside (w : Who) : State := { fresh with ctx := .exec w true }

/-- The state after a command, if it has one. -/
def after (i : Instr) (s : State) : State :=
  match exec i s with
  | .next s' => s'
  | _ => s

/-- The response or event emitted last. -/
def last (s : State) : Option Event := s.events.head?

/-! ### WellFormed -/

theorem test_wf_refuses_target_of_self : (Instr.reset (.lane 0xFFFF)).wf = false := by decide
theorem test_wf_refuses_wide_lane : (Instr.start (.lane 0x10000) 0).wf = false := by decide
theorem test_wf_accepts_last_lane : (Instr.start (.lane 0xFFFE) 0).wf = true := by decide

/-! ### Words written out from R91 and R93 -/

theorem test_decode_reset : decode 0x0000000000000000FFFF000001 = .ok (.reset .self) := by decide
theorem test_decode_step : decode 0x0000000000000002FFFF000102 = .ok (.step .self true 2) := by decide
theorem test_decode_deliverIrq : decode 0x00000000000000000003000503 = .ok (.deliverIrq (.lane 3) 5) := by decide
theorem test_decode_deliverIrq_ignores : decode 0x0000000000000000FFFFFFFD03 = .ok (.deliverIrq .self 5) := by decide
theorem test_decode_read : decode 0x00000000000000000003001004 = .ok (.read (.lane 3) 0x10) := by decide
theorem test_decode_setStatus : decode 0x00000000FFFE0000FFFF000010 = .ok (.setStatus .self 0xFFFE0000) := by decide
theorem test_decode_setFstatus : decode 0x00000000000000E3FFFF000011 = .ok (.setFstatus .self 0xE3) := by decide
theorem test_decode_writeCr :
    decode 0x000000010000000AFFFF000A20 = .ok (.writeCr .self 0x0A 0x10000000A) := by decide
theorem test_decode_clearPending : decode 0x0000000000000000FFFF018021 = .ok (.clearPending .self 0x80) := by decide
theorem test_decode_writeXpr : decode 0x0000000000000007FFFF002530 = .ok (.writeXpr .self 5 7) := by decide
theorem test_decode_writeFpr :
    decode 0x3FF0000000000000FFFF001F31 = .ok (.writeFpr .self 31 0x3FF0000000000000) := by decide
theorem test_decode_setVregs : decode 0x0000000000000000FFFF012040 = .ok (.setVregs .self 32 1) := by decide
theorem test_decode_setBanks : decode 0x0000000000000000FFFF000F41 = .ok (.setBanks .self 0x0F) := by decide
theorem test_decode_recomputeVlmax : decode 0x0000000000000000FFFF000042 = .ok (.recomputeVlmax .self) := by decide
theorem test_decode_setVl : decode 0x00000000000003E8FFFF000043 = .ok (.setVl .self 1000) := by decide
theorem test_decode_start : decode 0x000000000000001007FF000044 = .ok (.start (.lane 2047) 0x10) := by decide
theorem test_decode_bad_opcode : decode 0x0000000000000000FFFF000005 = .error (.badOpcode 5) := by decide

theorem test_encode_step : encode (.step (.lane 3) false 100) = 0x00000000000000640003000002 := by decide
theorem test_encode_setVregs : encode (.setVregs .self 63 63) = 0x0000000000000000FFFF3F3F40 := by decide

/-- Section 2.8, outcome words and fetch responses. -/
theorem test_collaborator_words :
    encodeOutcome (.continueAt 0xFFFFFFFFFFFFFFFC) = 0x3FFFFFFFFFFFFFFF0 ∧ decodeOutcome 0x5D = .trap 23 ∧
    decodeFetch 0x200000026 = .fetched 0x13 1 ∧ decodeFetch 0x3 = .fetchFault 1 ∧
    decodeFetch 0x15 = .fetchFault 10 := by decide

/-- Section 2.8, STEP responses. -/
theorem test_step_responses :
    encodeStepResponse .budget 4 = 0x20 ∧ encodeStepResponse .laneComplete 2 = 0x11 ∧
    encodeStepResponse .halted 2 = 0x12 ∧ encodeStepResponse .parked 0 = 0x3 ∧
    encodeStepResponse .fatal 0 = 0x4 := by decide

/-! ### Status registers -/

/-- V-ST-1. -/
theorem test_setStatus_all :
    (after (.setStatus .self 0xFFFFFFFF) fresh).top.sr = 0x0001FFFF ∧
    (after (.setStatus .self 0xFFFFFFFF) fresh).top.flushCount = 2 := by decide

/-- V-ST-15. -/
theorem test_setStatus_no64 :
    let s := after (.setStatus .self 0x000000A0) (State.construct { cfg4 with cap64 := false })
    s.top.sr = 0x20 ∧ s.top.xprlen = .w32 := by decide

/-- V-FS-4. -/
theorem test_setFstatus_not_gated :
    (after (.setFstatus .self 0x11F) (State.construct { cfg4 with capFpu := false })).top.fsr = 0x1F := by decide

/-- V-TR-1, V-TR-2, V-TR-4, V-TR-6. -/
theorem test_trapEntryStatus :
    trapEntryStatus 0x0000FFA1 = 0x0000FFB0 ∧ trapEntryStatus 0x0000FF41 = 0x0000FF60 ∧
    trapEntryStatus 0x00000011 = 0x00000020 ∧ trapEntryStatus 0 = 0x20 := by decide

/-- P2 and P3: the status words their TRAP_RETURN writes. -/
theorem test_trapReturnStatus : trapReturnStatus 0xFFB0 = 0xFFB1 ∧ trapReturnStatus 0xFF60 = 0xFF41 := by decide

/-! ### Interrupts -/

/-- V-IR-1 to V-IR-4, V-IR-8. -/
theorem test_interrupt_choice :
    takeInterruptIfAny { Proc.blank with pending := 0x24, sr := 0xFF01 } = some 18 ∧
    takeInterruptIfAny { Proc.blank with pending := 0x24, sr := 0x2001 } = some 21 ∧
    takeInterruptIfAny { Proc.blank with pending := 0x24, sr := 0xFF00 } = none ∧
    takeInterruptIfAny { Proc.blank with pending := 0x24, sr := 0xDB01 } = none ∧
    takeInterruptIfAny { Proc.blank with pending := 0x81, sr := 0xFE01 } = some 23 := by decide

/-- V-DI-6. -/
theorem test_deliverIrq_lane :
    let s := after (.deliverIrq (.lane 3) 5) fresh
    (s.get (.lane 3)).pending = 0x20 ∧ (s.get (.lane 3)).run = true ∧ s.top = fresh.top := by decide

/-- V-CP-1. -/
theorem test_clearPending :
    (after (.clearPending .self 0x80) (fresh.withTop fun p => { p with pending := 0xA0 })).top.pending = 0x20 := by decide

/-! ### The loop -/

/-- V-EX-11, which is V-EX-4 with a command before the trap. -/
theorem test_step_trap :
    let s := after (.step .self false 1) (scripted awake [.writeXpr .self 3 1] (.trap 2))
    s.top.sr = 0xFFB0 ∧ s.top.cause = 2 ∧ s.top.epc = 0x1000 ∧ s.top.pc = 0x2000 ∧ s.top.badvaddr = 0xB ∧
      s.top.x[3] = 1 ∧ s.top.cycle = 1 ∧ s.top.count = 1 ∧ last s = some (.stepResponse 0x8) := by decide

/-- P4: the owner's instruction that configures, starts and steps lane 0, with the lane's three. -/
theorem test_step_nested :
    let s := after (.step .self false 1)
      { awake with
        fetches := [0x200000026, 0x200000026, 0x200000026, 0x200000026]
        executions := [
          { commands := [0x0000000000000000FFFF000440, 0x0000000000000000FFFF000042, 0x00000000000000070000000130,
              0x00000000000030000000000044, 0x00000000000000640000000002], outcome := some 0x10 },
          { commands := [0x000000000000000EFFFF000230], outcome := some 0xC010 },
          { commands := [], outcome := some 0xC020 },
          { commands := [], outcome := some 0x2 }] }
    s.top.pc = 4 ∧ s.top.cycle = 1 ∧ s.top.vlmax = 4 ∧ (s.get (.lane 0)).pc = 0x3008 ∧ (s.get (.lane 0)).cycle = 2 ∧
      (s.get (.lane 0)).x[2] = 14 ∧ (s.get (.lane 0)).vlmax = 4 ∧
      s.events.filter (fun e => e matches .stepResponse _) = [.stepResponse 0x8, .stepResponse 0x11] := by decide

/-- A handler that never returns (R153). -/
theorem test_step_hang :
    (match exec (.step .self false 1)
        { awake with fetches := [0], executions := [{ commands := [], outcome := none }] } with
      | .fault e => decide (e = .handlerHang)
      | _ => false) = true := by decide

/-! ### Vector lanes, timer, access, reset -/

/-- V-VM-5, V-VM-9, V-VM-14, V-VM-1. -/
theorem test_vlCapacity :
    Proc.vlCapacity 256 4 8 = 680 ∧ Proc.vlCapacity 256 126 8 = 16 ∧ Proc.vlCapacity 64 126 8 = 0 ∧
    Proc.vlCapacity 256 0 8 = 2048 := by decide

/-- V-VM-17. -/
theorem test_setBanks :
    (after (.setBanks .self 0xFF0F) fresh).top.vecbanks = 0x0F ∧
    (after (.setBanks .self 0xFF0F) fresh).top.vecbanksCount = 4 := by decide

/-- V-VL-5. -/
theorem test_setVl_unsigned :
    (after (.setVl .self 0xFFFFFFFFFFFFFFFF) (fresh.withTop fun p => { p with vlmax := 32 })).top.vl = 32 := by decide

/-- V-VM-12's clamp, with four lanes; V-VM-16's clamp of `vl`. -/
theorem test_recomputeVlmax_clamps :
    let s := after (.recomputeVlmax .self) (fresh.withTop fun p => { p with nxprUse := 1, nfprUse := 1, vl := 9 })
    s.top.vlmax = 4 ∧ s.top.vl = 4 := by decide

theorem test_setVregs : (after (.setVregs .self 4 63) fresh).top.nfprUse = 63 := by decide

/-- V-SL-2. -/
theorem test_start_self : (after (.start .self 0x3000) fresh).top.fatal = true := by decide

/-- V-SL-1. -/
theorem test_start_lane :
    let p := (after (.start (.lane 0) 0x3000) fresh).get (.lane 0)
    p.pc = 0x3000 ∧ p.run = true ∧ p.sr = 0xFFA7 := by decide

/-- V-TM-9, V-TM-10, V-TM-12, V-TM-3. -/
theorem test_timer :
    (Proc.timerUpdate 4 { Proc.blank with count := 0xFFFFFFFE, compare := 0xFFFFFFFF }).pending = 0x80 ∧
    (Proc.timerUpdate 4 { Proc.blank with count := 0xFFFFFFFE, compare := 1 }).pending = 0 ∧
    (Proc.timerUpdate 0x100000000 { Proc.blank with count := 3, compare := 5 }).count = 3 ∧
    (Proc.timerUpdate 5 { Proc.blank with count := 15, compare := 15 }).pending = 0 := by decide

/-- V-AC-2, V-AC-3. -/
theorem test_read_laneIndex :
    last (after (.read .self 0x10) fresh) = some (.readValue 0xFFFFFFFFFFFFFFFF) ∧
    last (after (.read (.lane 3) 0x10) fresh) = some (.readValue 3) := by decide

/-- V-AC-8. -/
theorem test_read_bad_selector : (after (.read .self 0x60) fresh).top.fatal = true := by decide

/-- V-TM-17. -/
theorem test_writeCr_compare :
    let s := after (.writeCr .self 0x0B 100) (fresh.withTop fun p => { p with pending := 0xA0 })
    s.top.compare = 100 ∧ s.top.pending = 0x20 := by decide

/-- V-AC-12. -/
theorem test_writeCr_status : (after (.writeCr .self 0x00 1) fresh).top = { fresh.top with fatal := true } := by decide

/-- V-AC-15. -/
theorem test_writeXpr_zero : (after (.writeXpr .self 0 1) fresh).top.x[0] = 1 := by decide

/-- V-AC-17. -/
theorem test_writeFpr : (after (.writeFpr .self 31 9) fresh).top.f[31] = 9 := by decide

/-- V-RS-2. -/
theorem test_reset_lane :
    let s := after (.reset (.lane 0)) laneAwake
    (s.get (.lane 0)).run = false ∧ (s.get (.lane 0)).flushCount = 2 ∧ s.top = fresh.top := by decide

/-- V-RS-4. -/
theorem test_reset_no64 :
    let s := after (.reset .self) (State.construct { cfg4 with cap64 := false })
    s.top.sr = 0xFF21 ∧ s.top.xprlen = .w32 ∧ (s.get (.lane 0)).sr = 0xFF27 := by decide

/-- The first step of the machine as constructed by the common configuration (V-AC-15's word). -/
theorem test_step_from_reset :
    (match Machine.step (State.reset.withFetchWord 104 0x0000000000000001FFFF000030) with
      | .next s => s.top.x[0]
      | _ => 0) = 1 := by decide

/-! ### Witnesses: for every statement with hypotheses, states and operands that meet them -/

theorem fresh_accepts_self : fresh.Accepts .self .top := ⟨by decide, by decide, by decide, by decide⟩
theorem fresh_accepts_lane : fresh.Accepts (.lane 3) (.lane 3) := ⟨by decide, by decide, by decide, by decide⟩

/-- Both kinds of target. -/
theorem fresh_accepts : fresh.Accepts .self .top ∧ fresh.Accepts (.lane 3) (.lane 3) :=
  ⟨fresh_accepts_self, fresh_accepts_lane⟩

theorem witness_DecodeEncodeRoundTrip : (Instr.start (.lane 0xFFFE) 5).wf = true := by decide
theorem witness_DecodedCommandIsEncodable : decode 0x44 = .ok (.start (.lane 0) 0) := by decide
theorem witness_UnlistedOpcodesRejected :
    fieldOp 0x45 ∉ ([0x01, 0x02, 0x03, 0x04, 0x10, 0x11, 0x20, 0x21, 0x30, 0x31, 0x40, 0x41, 0x42, 0x43, 0x44] :
      List (BitVec 8)) := by decide

/-- V-DI-4's word and V-DI-1's. -/
theorem witness_UnnamedOperandBitsIgnored :
    let w : CommandWord := 0x0000000000000000FFFFFFFD03
    let w' : CommandWord := 0xFFFFFFFFFFFFFFFFFFFF000503
    fieldOp w = fieldOp w' ∧ fieldT w = fieldT w' ∧
    fieldA w &&& (namedOperandBits (fieldOp w)).1 = fieldA w' &&& (namedOperandBits (fieldOp w)).1 ∧
    fieldV w &&& (namedOperandBits (fieldOp w)).2 = fieldV w' &&& (namedOperandBits (fieldOp w)).2 ∧ w ≠ w' := by decide

/-- A word of each kind. -/
theorem witness_CollaboratorWordsRoundTrip :
    (0x4010 : OutcomeWord).extractLsb' 0 2 = 0 ∧ (0x19 : OutcomeWord).extractLsb' 0 2 = 1 ∧
    (0x2 : OutcomeWord).extractLsb' 0 2 = 2 ∧ (0x3 : OutcomeWord).extractLsb' 0 2 = 3 ∧
    (0x200000026 : FetchWord).getLsbD 0 = false ∧ (0x3 : FetchWord).getLsbD 0 = true ∧ 4 < 2 ^ 64 := by decide

theorem witness_StepRunsDecodedCommand :
    ({ fresh with commands := [0x44] } : State).commands = 0x44 :: [] ∧ decode 0x44 = .ok (.start (.lane 0) 0) := by
  decide
theorem witness_IllegalCommandIsFatal :
    decode 0x05 = .error (.badOpcode 5) ∧
    (({ fresh with commands := [0x05] } : State).get (State.presented { fresh with commands := [0x05] })).fatal = false := by
  decide
theorem witness_HandlerCommandsMeanExec :
    (inside .top).ctx = .exec .top true ∧ (inside (.lane 3)).ctx = .exec (.lane 3) true := by decide

/-- The invariants hold of `fresh`, and a step from it answers a next state. -/
theorem witness_StepKeepsInvariants :
    fresh.Inv ∧ ∃ s', Machine.step (fresh.withFetchWord 104 0x0000000000000001FFFF000030) = .next s' := by
  refine ⟨⟨by decide, by decide, by constructor <;> decide, fun i p h => ?_, by decide⟩, _, rfl⟩
  match i with
  | 0 => cases h; constructor <;> decide
  | 1 => cases h; constructor <;> decide
  | 2 => cases h; constructor <;> decide
  | 3 => cases h; constructor <;> decide
  | _ + 4 => cases h

theorem witness_FatalRecordNeverChanges :
    (dead.get .top).fatal = true ∧ exec (.reset .self) dead = .next (after (.reset .self) dead) := ⟨by decide, rfl⟩
theorem witness_FatalProcessorIgnoresCommands : (dead.get dead.presented).fatal = true := by decide
theorem witness_ConfigurationAndIdentityConstant :
    exec (.reset .self) fresh = .next (after (.reset .self) fresh) := rfl

/-- A delivery wakes the processor, and a lane; START wakes a lane; so does a STEP of the owner whose handler issues
START. -/
theorem witness_ParkedIsWokenOnlyByDelivery :
    fresh.ctx = .idle ∧ fresh.top.run = false ∧ (after (.deliverIrq .self 5) fresh).top.run = true ∧
    (fresh.get (.lane 3)).run = false ∧ ((after (.deliverIrq (.lane 3) 5) fresh).get (.lane 3)).run = true ∧
    ((after (.start (.lane 3) 0) fresh).get (.lane 3)).run = true ∧
    ((after (.step .self false 1) (scripted awake [.start (.lane 3) 0] (.continueAt 0))).get (.lane 3)).run = true := by
  decide

/-- `fresh` with every line pending. -/
def allPending : State := fresh.withTop fun p => { p with pending := 0xFF }

theorem witness_PendingClearedOnlyByAcknowledge :
    allPending.ctx = .idle ∧ allPending.top.pending.getLsbD 5 = true ∧ allPending.top.pending.getLsbD 7 = true ∧
    (after (.clearPending .self 0x20) allPending).top.pending.getLsbD 5 = false ∧
    (after (.writeCr .self 0x0B 0) allPending).top.pending.getLsbD 7 = false ∧
    (after (.reset .self) allPending).top.pending.getLsbD 5 = false ∧
    (after (.step .self false 1) (scripted (awake.upd .top fun p => { p with sr := 0, pending := 0x20 })
      [.clearPending .self 0x20] (.continueAt 0))).top.pending.getLsbD 5 = false := by decide

theorem witness_UserModeOnlyByStatusWrite :
    fresh.ctx = .idle ∧ srS fresh.top.sr = true ∧ srS (after (.setStatus .self 0) fresh).top.sr = false ∧
    srS (after (.reset .self) { fresh with cfg := { cfg4 with resetStatusRaw := 0 } }).top.sr = false ∧
    srS (after (.step .self false 1) (scripted awake [.setStatus .self 0] (.continueAt 0))).top.sr = false := by decide

theorem witness_ConstructionLeavesResetValues : 3 < cfg4.maxLanes := by decide
theorem witness_ResetOfProcessorResult :
    fresh.ctx = .idle ∧ fresh.top.fatal = false ∧ fresh.lanes[3]? = some (fresh.get (.lane 3)) := by decide
theorem witness_ResetOfLaneResult :
    fresh.Accepts (.lane 3) (.lane 3) ∧ (inside .top).Accepts (.lane 3) (.lane 3) :=
  ⟨fresh_accepts_lane, ⟨by decide, by decide, by decide, by decide⟩⟩
theorem witness_ResetIsIdempotent :
    fresh.Accepts .self .top ∧ fresh.ctx = .idle ∧ (inside .top).Accepts (.lane 3) (.lane 3) ∧ Target.lane 3 ≠ .self :=
  ⟨fresh_accepts_self, rfl, ⟨by decide, by decide, by decide, by decide⟩, by decide⟩
theorem witness_LaneResetForcesEnables :
    fresh.Accepts (.lane 3) (.lane 3) ∧ 0 ≤ (fresh.get (.lane 3)).laneIndex := ⟨fresh_accepts_lane, by decide⟩
theorem witness_ReentrantCommandIsFatal :
    (inside .top).ctx = .exec .top true ∧ ((inside .top).get .top).fatal = false ∧
    (inside (.lane 3)).ctx = .exec (.lane 3) true ∧ ((inside (.lane 3)).get (.lane 3)).fatal = false := by decide

/-- The first index out of range from the harness, and any index from a lane's handler. -/
theorem witness_BadTargetIsFatal :
    (Instr.setVl (.lane 4) 1).target = .lane 4 ∧ (fresh.get fresh.presented).fatal = false ∧ fresh.cfg.maxLanes ≤ 4 ∧
    (Instr.setVl (.lane 0) 1).target = .lane 0 ∧ ((inside (.lane 3)).get (inside (.lane 3)).presented).fatal = false ∧
    (inside (.lane 3)).presented ≠ .top := by decide

theorem witness_SetStatusResult : fresh.Accepts .self .top ∧ fresh.Accepts (.lane 3) (.lane 3) := fresh_accepts

/-- A configuration without any capability. -/
theorem witness_StatusReadbackCanonical :
    (State.construct { cfg4 with cap64 := false, capFpu := false, capRvc := false, capVec := false }).Accepts .self .top :=
  ⟨by decide, by decide, by decide, by decide⟩
theorem witness_SetFstatusResult : fresh.Accepts .self .top ∧ fresh.Accepts (.lane 3) (.lane 3) := fresh_accepts
theorem witness_DeliverIrqResult : fresh.Accepts .self .top ∧ fresh.Accepts (.lane 3) (.lane 3) := fresh_accepts
theorem witness_ClearPendingResult : fresh.Accepts .self .top ∧ fresh.Accepts (.lane 3) (.lane 3) := fresh_accepts

/-- Line 7, the last one, is signalled; and nothing is. -/
theorem witness_InterruptCheckPicksLowestLine :
    takeInterruptIfAny { Proc.blank with pending := 0x80, sr := 0x8001 } = some 23 ∧
    takeInterruptIfAny Proc.blank = none := by decide
theorem witness_TrapStatusBits :
    (∃ k : Nat, k ≠ 0 ∧ k ≠ 4 ∧ k ≠ 5) ∧ (∃ k : Nat, k ≠ 0 ∧ k ≠ 5) ∧ srET 0x0000FFA1 = true :=
  ⟨⟨1, by decide⟩, ⟨4, by decide⟩, by decide⟩
theorem witness_TrapEntryResult :
    (fresh.proc? .top).isSome = true ∧ (fresh.proc? (.lane 3)).isSome = true ∧ (23 : Cause).toNat < 24 ∧
    (scripted fresh [] .halt).badAddrs = 0xB :: [] := by decide
theorem witness_UnrecognisedCauseIsFatal : 24 ≤ (24 : Cause).toNat ∧ 24 ≤ (31 : Cause).toNat := by decide

/-! The witnesses of the STEP statements, on the processor and on a lane. -/

theorem awake_accepts : awake.Accepts .self .top := ⟨by decide, by decide, by decide, by decide⟩
theorem laneAwake_accepts : laneAwake.Accepts (.lane 0) (.lane 0) := ⟨by decide, by decide, by decide, by decide⟩

theorem witness_StepThatDoesNothing :
    fresh.Accepts .self .top ∧ fresh.ctx = .idle ∧ (fresh.get .top).run = false ∧
    (inside .top).Accepts (.lane 3) (.lane 3) ∧ Target.lane 3 ≠ .self ∧ ((inside .top).get (.lane 3)).run = false ∧
    awake.Accepts .self .top ∧ awake.ctx = .idle ∧ (awake.get .top).run = true ∧
    laneAwake.Accepts (.lane 0) (.lane 0) ∧ (laneAwake.get (.lane 0)).run = true :=
  ⟨fresh_accepts_self, rfl, by decide, ⟨by decide, by decide, by decide, by decide⟩, by decide, by decide,
    awake_accepts, rfl, by decide, laneAwake_accepts, by decide⟩
theorem witness_StepCompletesUnlessHandlerHangs : (scripted awake [] .halt).NoScriptedHang := by
  intro e h
  simp only [scripted, List.mem_singleton] at h
  subst h; rfl

theorem awake_no_interrupt : awake.top.pending &&& srIM awake.top.sr = 0 := by decide
theorem laneAwake_no_interrupt :
    (laneAwake.get (.lane 0)).pending &&& srIM (laneAwake.get (.lane 0)).sr = 0 := by decide

/-- What the statements about one fetched instruction ask of a state: the record accepts the STEP and is quiet, and its
handler issues commands after which it is not fatal, and returns `o`; a bad address is scripted, and there is a lane 3. -/
structure Ready (s : State) (t : Target) (w : Who) (o : HandlerOutcome) : Prop where
  accepts : s.Accepts t w
  idle : s.ctx = .idle
  quiet : s.Quiet w
  executes : ∃ s1, s.Executes w false s1 o ∧ (s1.get w).fatal = false ∧ s1.badAddrs = 0xB :: [] ∧
    s1.lanes[3]? = some (fresh.get (.lane 3))

/-- V-EX-11's command. -/
def mark : List Instr := [.writeXpr .self 3 1]

theorem ready_top (o : HandlerOutcome) (h : decodeOutcome (encodeOutcome o) = o) :
    Ready (scripted awake mark o) .self .top o :=
  ⟨⟨rfl, rfl, rfl, rfl⟩, rfl, ⟨rfl, rfl, rfl, .inr awake_no_interrupt⟩, _,
    ⟨0x200000026, [], 0x13, 1, mark.map encode, mark, encodeOutcome o, [], rfl, by decide, rfl, h, by decide, _, rfl, rfl⟩,
    rfl, rfl, rfl⟩
theorem ready_lane (o : HandlerOutcome) (h : decodeOutcome (encodeOutcome o) = o) :
    Ready (scripted laneAwake mark o) (.lane 0) (.lane 0) o :=
  ⟨⟨rfl, rfl, rfl, rfl⟩, rfl, ⟨rfl, rfl, rfl, .inr laneAwake_no_interrupt⟩, _,
    ⟨0x200000026, [], 0x13, 1, mark.map encode, mark, encodeOutcome o, [], rfl, by decide, rfl, h, by decide, _, rfl, rfl⟩,
    rfl, rfl, rfl⟩

theorem witness_ContinueRetiresOne :
    Ready (scripted awake mark (.continueAt 0x1004)) .self .top (.continueAt 0x1004) ∧
    Ready (scripted laneAwake mark (.continueAt 0x1004)) (.lane 0) (.lane 0) (.continueAt 0x1004) :=
  ⟨ready_top _ (by decide), ready_lane _ (by decide)⟩

/-- What the statement about an iteration boundary asks, with the line it then takes. -/
structure Arrival (s : State) (t : Target) (w : Who) (c : Cause) : Prop where
  accepts : s.Accepts t w
  context : s.ctx = .idle ∨ t ≠ .self
  lands : ∃ s1, State.Issues (s.arriving w) (s.pastArrivals w) s1 ∧ (s1.get w).fatal = false ∧
    takeInterruptIfAny (s1.get w) = some c

/-- V-EX-16 with k = 1 (line 5 lands before the first iteration); line 7 lands on a lane, stepped by the harness and inside
its owner's STEP; and nothing lands where line 2 was pending. -/
theorem witness_InterruptTakenBeforeFetch :
    let s := { scripted awake [] .halt with deliveries := [[⟨.self, 5⟩]] }
    let l := { laneAwake with laneDeliveries := [[7]] }
    Arrival s .self .top 21 ∧ s.ctx = .idle ∧ (s.get .top).run = true ∧ s.badAddrs = 0xB :: [] ∧
    Arrival l (.lane 0) (.lane 0) 23 ∧ Arrival { l with ctx := .exec .top false } (.lane 0) (.lane 0) 23 ∧
    Arrival (awake.upd .top (Proc.deliver 2)) .self .top 18 :=
  ⟨⟨⟨rfl, rfl, rfl, rfl⟩, .inl rfl, _, ⟨_, rfl, rfl⟩, by decide, by decide⟩, rfl, by decide, rfl,
    ⟨⟨rfl, rfl, rfl, rfl⟩, .inl rfl, _, ⟨_, rfl, rfl⟩, by decide, by decide⟩,
    ⟨⟨rfl, rfl, rfl, rfl⟩, .inr (by decide), _, ⟨_, rfl, rfl⟩, by decide, by decide⟩,
    ⟨⟨rfl, rfl, rfl, rfl⟩, .inl rfl, _, rfl, by decide, by decide⟩⟩

theorem witness_FetchFaultTraps :
    let s := { scripted awake [] .halt with fetches := [0x3] }
    s.Accepts .self .top ∧ s.ctx = .idle ∧ s.Quiet .top ∧ s.fetches = 0x3 :: [] ∧ decodeFetch 0x3 = .fetchFault 1 ∧
    (1 : Cause).toNat < 24 ∧ s.badAddrs = 0xB :: [] :=
  ⟨⟨rfl, rfl, rfl, rfl⟩, rfl, ⟨rfl, rfl, rfl, .inr awake_no_interrupt⟩, rfl, by decide, by decide, rfl⟩
theorem witness_HandlerTrapTraps :
    Ready (scripted awake mark (.trap 23)) .self .top (.trap 23) ∧
    Ready (scripted laneAwake mark (.trap 23)) (.lane 0) (.lane 0) (.trap 23) ∧ (23 : Cause).toNat < 24 :=
  ⟨ready_top _ (by decide), ready_lane _ (by decide), by decide⟩
theorem witness_HandlerBadCauseEndsStep :
    Ready (scripted awake mark (.trap 24)) .self .top (.trap 24) ∧
    Ready (scripted laneAwake mark (.trap 31)) (.lane 0) (.lane 0) (.trap 31) ∧
    24 ≤ (24 : Cause).toNat ∧ 24 ≤ (31 : Cause).toNat ∧ (1 : BitVec 64) ≠ 0 :=
  ⟨ready_top _ (by decide), ready_lane _ (by decide), by decide, by decide, by decide⟩
theorem witness_HaltResetsAndEndsStep :
    Ready (scripted awake mark .halt) .self .top .halt ∧ Ready (scripted laneAwake mark .halt) (.lane 0) (.lane 0) .halt ∧
    Who.lane 0 ≠ .lane 3 ∧ (1 : BitVec 64) ≠ 0 :=
  ⟨ready_top _ (by decide), ready_lane _ (by decide), by decide, by decide⟩
theorem witness_LaneCompleteEndsLaneStep :
    Ready (scripted laneAwake mark .laneComplete) (.lane 0) (.lane 0) .laneComplete ∧
    ((scripted laneAwake mark .laneComplete).get (.lane 0)).laneIndex ≠ -1 ∧ (1 : BitVec 64) ≠ 0 :=
  ⟨ready_lane _ (by decide), by decide, by decide⟩
theorem witness_LaneCompleteOnTopIsFatal :
    Ready (scripted awake mark .laneComplete) .self .top .laneComplete ∧
    (scripted awake mark .laneComplete).top.laneIndex = -1 ∧ (1 : BitVec 64) ≠ 0 :=
  ⟨ready_top _ (by decide), by decide, by decide⟩
theorem witness_TrapReturnResumes :
    let s := { awake with fetches := [0x200000026], executions := [awake.trapReturn .top] }
    s.Accepts .self .top ∧ s.ctx = .idle ∧ s.Quiet .top ∧ decodeFetch 0x200000026 = .fetched 0x13 1 ∧
    s.executions = s.trapReturn .top :: [] :=
  ⟨⟨rfl, rfl, rfl, rfl⟩, rfl, ⟨rfl, rfl, rfl, .inr awake_no_interrupt⟩, by decide, rfl⟩

/-- One STEP for each exit code. -/
theorem witness_StepResponseTellsTheOutcome :
    let t o := after (.step .self false 1) (scripted awake [] o)
    awake.Accepts .self .top ∧ awake.ctx = .idle ∧
    exec (.step .self false 1) (scripted awake [] .halt) = .next (t .halt) ∧
    last (t (.continueAt 4)) = some (.stepResponse (encodeStepResponse .budget 1)) ∧
    last (t .halt) = some (.stepResponse (encodeStepResponse .halted 0)) ∧
    last (t (.trap 24)) = some (.stepResponse (encodeStepResponse .fatal 0)) ∧
    last (after (.step .self false 1) fresh) = some (.stepResponse (encodeStepResponse .parked 0)) ∧
    last (after (.step (.lane 0) false 1) (scripted laneAwake [] .laneComplete)) =
      some (.stepResponse (encodeStepResponse .laneComplete 0)) :=
  ⟨awake_accepts, rfl, rfl, by decide, by decide, by decide, by decide, by decide⟩

/-- A lane's STEP that retires one, and one whose handler sets both latches. -/
theorem witness_LaneStepLeavesOwnerAlone :
    laneAwake.Accepts (.lane 0) (.lane 0) ∧
    exec (.step (.lane 0) false 1) (scripted laneAwake [] .halt) =
      .next (after (.step (.lane 0) false 1) (scripted laneAwake [] .halt)) ∧
    (after (.step (.lane 0) false 1) (scripted laneAwake [] (.trap 24))).top.fatal = true :=
  ⟨laneAwake_accepts, rfl, by decide⟩

/-! Timer, vector lanes, access. -/

/-- A word of each opcode whose encoding a statement of a result gives. -/
theorem witness_encoding_clauses :
    fieldOp 0x04 = 0x04 ∧ fieldOp 0x11 = 0x11 ∧ fieldOp 0x21 = 0x21 ∧ fieldOp 0x40 = 0x40 ∧ fieldOp 0x42 = 0x42 ∧ fieldOp 0x43 = 0x43 ∧
    fieldOp 0x44 = 0x44 ∧ fieldOp 0x20 = 0x20 ∧ fieldOp 0x30 = 0x30 ∧ fieldOp 0x31 = 0x31 := by decide

theorem witness_TimerCornerCases :
    let p : Proc := { Proc.blank with count := 0xFFFFFFFE, compare := 0xFFFFFFFF }
    Proc.blank.compare = 0 ∧ Proc.blank.count = Proc.blank.compare ∧
    p.count.toNat < p.compare.toNat ∧ p.count.toNat + 1 = p.compare.toNat ∧ p.compare.toNat ≤ p.count.toNat + 4 ∧
    p.count = 0xFFFFFFFE ∧ p.compare = 0xFFFFFFFF ∧ ({ p with compare := 1 } : Proc).compare = 1 ∧
    (Proc.timerUpdate 1 { Proc.blank with compare := 1 }).pending ≠ 0 ∧ 2 ^ 32 ≤ 2 ^ 32 := by decide
theorem witness_TimerFiresOncePerCrossing :
    let p : Proc := { Proc.blank with count := 10, compare := 15 }
    p.count.toNat < p.compare.toNat ∧ p.compare.toNat ≤ p.count.toNat + 5 ∧ p.count.toNat + 5 < 2 ^ 32 := by decide
theorem witness_SetVregsResult : fresh.Accepts .self .top ∧ fresh.Accepts (.lane 3) (.lane 3) := fresh_accepts
theorem witness_SetBanksResult : fresh.Accepts .self .top ∧ fresh.Accepts (.lane 3) (.lane 3) := fresh_accepts

/-- Requests of one register, below the threshold, and of two, at it. -/
theorem witness_RecomputeVlmaxResult :
    let s := fresh.withTop fun p => { p with nxprUse := 1, nfprUse := 0 }
    let s' := fresh.withTop fun p => { p with nxprUse := 1, nfprUse := 1 }
    s.Accepts .self .top ∧ 1 = (s.get .top).nxprUse.toNat + (s.get .top).nfprUse.toNat ∧
    s'.Accepts .self .top ∧ 2 = (s'.get .top).nxprUse.toNat + (s'.get .top).nfprUse.toNat :=
  ⟨⟨rfl, rfl, rfl, rfl⟩, by decide, ⟨rfl, rfl, rfl, rfl⟩, by decide⟩
theorem witness_SetVlResult : fresh.Accepts .self .top ∧ fresh.Accepts (.lane 3) (.lane 3) := fresh_accepts

/-- The last lane, the processor itself, the first index out of range, and a lane's handler. -/
theorem witness_StartResult :
    fresh.Accepts (.lane 3) (.lane 3) ∧ (fresh.get fresh.presented).fatal = false ∧ fresh.cfg.maxLanes ≤ 4 ∧
    ((inside (.lane 3)).get (inside (.lane 3)).presented).fatal = false ∧ (inside (.lane 3)).presented ≠ .top :=
  ⟨fresh_accepts_lane, by decide, by decide, by decide, by decide⟩

/-- The selectors at the edges of R99's table, and a fatal processor. -/
theorem witness_ReadResult :
    fresh.Accepts .self .top ∧ decodeSelector 0x1A = some .mmuS ∧ decodeSelector 0x20 = some (.x 0) ∧
    decodeSelector 0x5F = some (.f 31) ∧ decodeSelector 0x1B = none ∧ decodeSelector 0x60 = none ∧
    (dead.get dead.presented).fatal = true ∧ dead.resolve .self = some .top ∧
    dead.resolve (.lane 3) = some (.lane 3) :=
  ⟨fresh_accepts_self, by decide, by decide, by decide, by decide, by decide, by decide, by decide, by decide⟩

/-- A selector that READ knows and WRITE_CR does not, and one that neither knows. -/
theorem witness_WriteCrResult :
    fresh.Accepts .self .top ∧ (0x02 : BitVec 8) ∉ ([0x03, 0x04, 0x07, 0x08, 0x0A, 0x0B] : List (BitVec 8)) ∧
    (0x1B : BitVec 8) ∉ ([0x03, 0x04, 0x07, 0x08, 0x0A, 0x0B] : List (BitVec 8)) :=
  ⟨fresh_accepts_self, by decide, by decide⟩
theorem witness_WriteXprResult : fresh.Accepts .self .top ∧ fresh.Accepts (.lane 3) (.lane 3) := fresh_accepts
theorem witness_WriteFprResult : fresh.Accepts .self .top ∧ fresh.Accepts (.lane 3) (.lane 3) := fresh_accepts

end Sys2Proof.Tests
end

section
/-! PROOFS. The scope's statements: what one step of the machine does (R15, R19). -/

namespace Sys2Proof.Proofs

open Sys2Proof Sys2Proof.Machine

/-- Settles O7: the port's head is the word `step` decodes, and a decoded word is the case in which it runs `exec`. -/
theorem stepRunsDecodedCommand : Obligations.StepRunsDecodedCommand := by
  intro s w rest i hport hdecode
  simp only [Machine.step, hport, hdecode]

end Sys2Proof.Proofs
end

section
/-! PROOFS. The invariants of R59: each write to one record keeps its own, each change a command makes keeps the
processor's, and construction starts from them. -/

namespace Sys2Proof.Machine

/-- A masked word has no bit outside the mask. -/
theorem and_and_not_self {n : Nat} (v m : BitVec n) : v &&& m &&& ~~~m = 0 := by
  rw [BitVec.and_assoc, BitVec.and_not_self]; exact BitVec.and_zero

/-- A configuration in R11's ranges has as many bank bits as banks (R231). -/
theorem popcount_bankMask {c : Config} (h : c.wf = true) : popcount (bankMask c) = c.nBanks := by
  have key : ∀ n : Nat, 1 ≤ n → n ≤ 16 → popcount (BitVec.ofNat 16 (2 ^ n - 1)) = n := by decide
  simp only [Config.wf, Bool.and_eq_true, decide_eq_true_eq] at h
  obtain ⟨⟨⟨-, hlow⟩, hhigh⟩, -⟩ := h
  exact key _ hlow hhigh

namespace Proc

variable {c : Config} {index : Int} {p : Proc}

/-- setStatus leaves a canonical status with its width and mirrors (R24, R49, R111). -/
theorem Inv.setStatus (h : p.Inv c index) (v : BitVec 32) : (p.setStatus c v).Inv c index :=
  { h with sr_canonical := and_and_not_self _ _, xprlen := rfl, mmu_vm := rfl, mmu_s := rfl }

/-- The reset table meets every invariant, whatever the record held but its identity (R60). -/
theorem atReset_inv (hc : c.wf = true) (hid : p.id = c.coreId) (hindex : p.laneIndex = index) :
    (atReset c p).Inv c index where
  id := hid
  lane_index := hindex
  sr_canonical := and_and_not_self _ _
  fsr_canonical := by simp [atReset]
  xprlen := rfl
  mmu_vm := rfl
  mmu_s := rfl
  vl_le := Nat.zero_le _
  vlmax_le := Nat.min_le_right _ _
  vecbanks_count := (popcount_bankMask hc).symm
  vecbanks_width := BitVec.and_not_self _
  cause_recognised := by simp [atReset, firstBadCause]

/-- RESET of one record keeps its invariants. -/
theorem Inv.reset (hc : c.wf = true) (h : p.Inv c index) : (p.reset c).Inv c index := by
  rw [reset_eq_atReset]
  split
  · exact h
  · exact atReset_inv hc h.id h.lane_index

/-- A write of WRITE_CR keeps the invariants: no selector it accepts is one they speak of (R182). -/
theorem Inv.writeSelector (h : p.Inv c index) {r : Selector} {v : Word} {q : Proc}
    (hq : writeSelector r v p = some q) : q.Inv c index := by
  cases r <;> cases hq <;> exact { h with }

/-- Every write to one record keeps its invariants. -/
theorem Inv.unitStep (hc : c.wf = true) (h : p.Inv c index) {q : Proc} (hq : UnitStep c p q) : q.Inv c index := by
  cases hq with
  | setStatus v => exact h.setStatus v
  | setFloatingStatus v => exact { h with fsr_canonical := and_and_not_self _ _ }
  | enterTrap code b hcode => exact { h.setStatus (trapEntryStatus p.sr) with cause_recognised := hcode }
  | setBanks m => exact { h with vecbanks_count := rfl, vecbanks_width := and_and_not_self _ _ }
  | recomputeVlmax => exact { h with vl_le := Nat.min_le_right _ _, vlmax_le := Nat.min_le_right _ _ }
  | setVl r => exact { h with vl_le := Nat.min_le_left _ _ }
  | writeCr r v q hw => exact h.writeSelector hw
  | reset => exact h.reset hc
  | deliver k => exact { h with }
  | clearPending m => exact { h with }
  | setVregs a b => exact { h with }
  | writeX i v => exact { h with }
  | writeF i v => exact { h with }
  | writePc npc => exact { h with }
  | closeBatch n => exact { h with }

end Proc

/-- No write to one record moves its latch (R58: only FATAL sets it, only construction clears it). -/
theorem UnitStep.fatal_eq {c : Config} {p q : Proc} (h : UnitStep c p q) : q.fatal = p.fatal := by
  cases h with
  | writeCr r v q hw => cases r <;> cases hw <;> rfl
  | reset => rw [Proc.reset_eq_atReset]; split <;> rfl
  | _ => rfl

namespace State.Inv

variable {s s' : State}

/-- The invariants speak of the configuration and the records only. -/
theorem around (h : s.Inv) (ha : Around s s') : s'.Inv := by
  obtain ⟨hcfg, htop, hlanes⟩ := ha
  constructor <;> simp only [hcfg, htop, hlanes]
  exacts [h.cfg_wf, h.lanes_length, h.top, h.lanes, h.latch]

/-- A write to the top-level record that keeps its invariants and clears no latch. -/
theorem updTop (h : s.Inv) (f : Proc → Proc) (hinv : (f s.top).Inv s.cfg (-1))
    (hlatch : s.top.fatal = true → (f s.top).fatal = true) : (s.upd .top f).Inv :=
  { h with top := hinv, latch := fun p hp hf => hlatch (h.latch p hp hf) }

/-- A write to a lane that keeps its invariants and sets its latch only if the owner's is set. -/
theorem updLane (h : s.Inv) (i : Nat) (f : Proc → Proc)
    (hinv : (s.get (.lane i)).Inv s.cfg (Int.ofNat i) → (f (s.get (.lane i))).Inv s.cfg (Int.ofNat i))
    (hlatch : (f (s.get (.lane i))).fatal = true → (s.get (.lane i)).fatal = true ∨ s.top.fatal = true) :
    (s.upd (.lane i) f).Inv := by
  have hlane : ∀ (j : Nat) (q : Proc), (s.lanes.modify i f)[j]? = some q →
      q.Inv s.cfg (Int.ofNat j) ∧ (q.fatal = true → s.top.fatal = true) := by
    intro j q hq
    rw [List.getElem?_modify] at hq
    obtain ⟨p, hp, rfl⟩ := Option.map_eq_some_iff.mp hq
    have howner := h.latch p (List.mem_of_getElem? hp)
    split
    · next hij =>
      subst hij
      have hget : s.get (.lane i) = p := by simp [get, hp]
      rw [hget] at hinv hlatch
      exact ⟨hinv (h.lanes i p hp), fun hf => (hlatch hf).elim howner id⟩
    · exact ⟨h.lanes j p hp, howner⟩
  exact {
    h with
    lanes_length := (upd_lanes_length s (.lane i) f).trans h.lanes_length
    lanes := fun j q hq => (hlane j q hq).1
    latch := fun q hq => by
      obtain ⟨j, hj⟩ := List.mem_iff_getElem?.mp hq
      exact (hlane j q hj).2 }

/-- A write to any record that keeps its invariants and does not move its latch. -/
theorem upd (h : s.Inv) (w : Who) (f : Proc → Proc)
    (hinv : ∀ index, (s.get w).Inv s.cfg index → (f (s.get w)).Inv s.cfg index)
    (hlatch : (f (s.get w)).fatal = (s.get w).fatal) : (s.upd w f).Inv := by
  cases w with
  | top => exact h.updTop f (hinv _ h.top) hlatch.trans
  | lane i => exact h.updLane i f (hinv _) fun hf => .inl (hlatch ▸ hf)

/-- FATAL sets the owner's latch with a lane's, so it keeps the rule about latches (R58). -/
theorem raiseFatal (h : s.Inv) (w : Who) (r : FatalReason) : (s.raiseFatal w r).Inv := by
  have htop : (s.upd .top fun p => { p with fatal := true }).Inv :=
    h.updTop _ { h.top with } fun _ => rfl
  cases w with
  | top => exact htop.around ⟨rfl, rfl, rfl, rfl, rfl, List.suffix_refl _⟩
  | lane i =>
    have hlane := htop.updLane i (fun p => { p with fatal := true }) (fun hi => { hi with }) fun _ => .inr rfl
    exact hlane.around ⟨rfl, rfl, rfl, rfl, rfl, List.suffix_refl _⟩

/-- The invariants are kept by everything a command can do. -/
theorem reaches (h : s.Inv) {A : Who → Prop} (hr : Reaches A s s') : s'.Inv := by
  refine hr.keeps State.Inv h ?_ ?_ ?_ ?_
  · exact fun _ _ ha hs => hs.around ha
  · exact fun s w f _ _ hf hs => hs.upd w f (fun _ hi => hi.unitStep hs.cfg_wf hf) hf.fatal_eq
  · exact fun s i pc _ _ hs => hs.upd (.lane i) _ (fun _ hi => { hi with }) rfl
  · exact fun s w r _ _ hs => hs.raiseFatal w r

end State.Inv

/-! ### Construction -/

/-- Construction leaves R60's values over the record's identity (R186, R230). -/
theorem Proc.construct_eq_atReset (c : Config) (index : Int) :
    Proc.construct c index = Proc.atReset c { Proc.blank with id := c.coreId, laneIndex := index } := by
  rw [Proc.construct, Proc.reset_eq_atReset]; rfl

theorem Proc.construct_inv {c : Config} (hc : c.wf = true) (index : Int) : (Proc.construct c index).Inv c index := by
  rw [construct_eq_atReset]
  exact atReset_inv hc rfl rfl

theorem Proc.construct_fatal (c : Config) (index : Int) : (Proc.construct c index).fatal = false := by
  rw [construct_eq_atReset]; rfl

namespace State

theorem construct_lanes_length (c : Config) : (construct c).lanes.length = c.maxLanes := by simp [construct]

theorem construct_lanes_getElem? {c : Config} {i : Nat} (hi : i < c.maxLanes) :
    (construct c).lanes[i]? = some (Proc.construct c (Int.ofNat i)) := by
  simp [construct, List.getElem?_range hi]

/-- Every lane right after construction is a constructed record. -/
theorem eq_construct_of_getElem? {c : Config} {i : Nat} {p : Proc} (hp : (construct c).lanes[i]? = some p) :
    p = Proc.construct c (Int.ofNat i) := by
  obtain ⟨hi, -⟩ := List.getElem?_eq_some_iff.mp hp
  rw [construct_lanes_length] at hi
  exact Option.some.inj (hp.symm.trans (construct_lanes_getElem? hi))

/-- No latch is set right after construction (R60). -/
theorem construct_noFatal (c : Config) : (construct c).NoFatal := by
  refine ⟨Proc.construct_fatal c (-1), fun p hp => ?_⟩
  obtain ⟨i, hi⟩ := List.mem_iff_getElem?.mp hp
  rw [eq_construct_of_getElem? hi]
  exact Proc.construct_fatal c _

/-- Construction meets the invariants, for every configuration in R11's ranges (R60, R186). -/
theorem construct_inv {c : Config} (hc : c.wf = true) : (construct c).Inv where
  cfg_wf := hc
  lanes_length := construct_lanes_length c
  top := Proc.construct_inv hc (-1)
  lanes i p hp := eq_construct_of_getElem? hp ▸ Proc.construct_inv hc (Int.ofNat i)
  latch p hp hf := by simp [(construct_noFatal c).2 p hp] at hf

end State

end Sys2Proof.Machine

namespace Sys2Proof.Proofs

open Sys2Proof Sys2Proof.Machine

/-- Settles O11: every step is a sequence of writes, each of which keeps the invariants. -/
theorem stepKeepsInvariants : Obligations.StepKeepsInvariants := by
  intro s s' hinv hstep
  obtain rfl | ⟨w, rest, -, hreach⟩ := step_reaches hstep
  · exact hinv
  · have hport : ({ s with commands := rest } : State).Inv := { hinv with }
    exact hport.reaches hreach

/-- Settles O10: the state after reset is a construction, and its configuration is in R11's ranges. -/
theorem resetStateMeetsInvariants : Obligations.ResetStateMeetsInvariants :=
  ⟨State.construct_inv (by decide), State.construct_noFatal _⟩

/-- Settles O18: every record is constructed, and construction ends with a RESET of a live record. -/
theorem constructionLeavesResetValues : Obligations.ConstructionLeavesResetValues := by
  intro c
  refine ⟨Proc.construct_eq_atReset c (-1), State.construct_lanes_length c, fun i hi => ?_⟩
  rw [State.construct_lanes_getElem? hi, Proc.construct_eq_atReset]

end Sys2Proof.Proofs
end

section
/-! PROOFS. The latch (R58): what FATAL does to each record, that a record whose latch is set stays as it is, and that
a processor whose latch is set ignores its commands. -/

namespace Sys2Proof.Machine

namespace State

/-- An update reaches a record or leaves it. -/
theorem get_upd_cases (s : State) (w v : Who) (f : Proc → Proc) :
    (s.upd w f).get v = s.get v ∨ (v = w ∧ (s.upd w f).get v = f (s.get v)) := by
  by_cases hv : v = w
  · subst hv
    rw [get, get, proc?_upd_same]
    cases s.proc? v with
    | none => exact .inl rfl
    | some p => exact .inr ⟨rfl, rfl⟩
  · exact .inl (get_upd_ne s hv f)

/-- FATAL leaves a record or sets its latch, and does nothing else to it (R58, R226). -/
theorem raiseFatal_get (s : State) (w : Who) (r : FatalReason) (v : Who) :
    (s.raiseFatal w r).get v = s.get v ∨ (s.raiseFatal w r).get v = { s.get v with fatal := true } := by
  rw [raiseFatal, emit_get]
  have hfirst := get_upd_cases s w v fun p => { p with fatal := true }
  have hsecond := get_upd_cases (s.upd w fun p => { p with fatal := true }) .top v fun p => { p with fatal := true }
  obtain h | ⟨-, h⟩ := hsecond
  · rw [h]; exact hfirst.imp id And.right
  · rw [h]
    obtain h0 | ⟨-, h0⟩ := hfirst <;> exact .inr (by rw [h0])

/-- FATAL changes no record whose latch is set already. -/
theorem raiseFatal_get_of_fatal {s : State} {v : Who} (hf : (s.get v).fatal = true) (w : Who) (r : FatalReason) :
    (s.raiseFatal w r).get v = s.get v := by
  obtain h | h := raiseFatal_get s w r v
  · exact h
  · rw [h, ← hf]

end State

/-- Nothing a command can do changes a record whose latch is set: every write is to another record (R58). -/
theorem Reaches.get_of_fatal {A : Who → Prop} {s s' : State} (h : Reaches A s s') {w : Who}
    (hf : (s.get w).fatal = true) : s'.get w = s.get w := by
  have hother : ∀ {s1 : State} {v : Who}, (s1.get v).fatal = false → s1.get w = s.get w → w ≠ v := by
    rintro s1 v halive hw rfl
    rw [hw, hf] at halive
    cases halive
  refine h.keeps (fun s1 => s1.get w = s.get w) rfl ?_ ?_ ?_ ?_
  · exact fun s1 s2 ha hs => (ha.get w).trans hs
  · exact fun s1 v f _ halive _ hs => (State.get_upd_ne s1 (hother halive hs) f).trans hs
  · exact fun s1 i pc _ halive hs => (State.get_upd_ne s1 (hother halive hs) _).trans hs
  · exact fun s1 v r _ _ hs => (State.raiseFatal_get_of_fatal (by rw [hs, hf]) v r).trans hs

theorem Around.sameMachine {s s' : State} (h : Around s s') : s.SameMachine s' := ⟨h.cfg, h.top, h.lanes⟩

section FatalProcessor

variable {s : State} (hf : (s.get s.presented).fatal = true)
include hf

/-- A command presented to a fatal record does nothing (R58). -/
theorem onTarget_of_fatal (t : Target) (k : Who → State) : s.onTarget t k = s := by
  rw [State.onTarget, if_pos hf]

/-- READ presented to a fatal record answers some value (R181). -/
theorem execRead_of_fatal (t : Target) (sel : BitVec 8) : ∃ s', execRead t sel s = .next s' ∧ Around s s' := by
  simp only [execRead, hf, Bool.true_or, if_true]
  refine ⟨_, rfl, ?_⟩
  split
  · unfold readWhileFatal
    split
    · exact .emit _ _
    · exact .answerFreely _
  · exact .answerFreely _

/-- STEP presented to a fatal record answers (FATAL, 0), whatever its target and context (log entries 3 and 8). -/
theorem execStep_of_fatal (t : Target) (tr : Bool) (n : BitVec 64) :
    execStep t tr n s = .next (s.respond .fatal 0) := by
  have hrefuse : ∀ r, refuseStep r s = .next (s.respond .fatal 0) := fun r => if_pos hf
  have hlane : ∀ i tr, stepLane i tr n s = .next (s.respond .fatal 0) := fun i tr => if_pos hf
  unfold execStep
  split
  · next hc =>
    cases t with
    | self =>
      have htop : (s.get .top).fatal = true := by simpa [State.presented, hc] using hf
      exact if_pos htop
    | lane i => exact hlane i tr
  · next owner hc =>
    cases t with
    | self => exact hrefuse .reentrant
    | lane i => exact hlane i owner
  · cases t with
    | self => exact hrefuse .reentrant
    | lane i => exact hrefuse .badTarget

end FatalProcessor

end Sys2Proof.Machine

namespace Sys2Proof.Proofs

open Sys2Proof Sys2Proof.Machine

/-- Settles O12: every command is a sequence of writes to records whose latch is clear, and of FATALs. -/
theorem fatalRecordNeverChanges : Obligations.FatalRecordNeverChanges :=
  fun _ _ _ _ hexec hf => (exec_reaches hexec).get_of_fatal hf

/-- Settles O13: READ and STEP answer, each other command stops at the test of the presented record's latch. -/
theorem fatalProcessorIgnoresCommands : Obligations.FatalProcessorIgnoresCommands := by
  intro i s hf
  have hsame : s.SameMachine s := ⟨rfl, rfl, rfl⟩
  have hignored : ∀ t k, ∃ s', (.next (s.onTarget t k) : Result) = .next s' ∧ s.SameMachine s' :=
    fun t k => ⟨s, by rw [onTarget_of_fatal hf], hsame⟩
  cases i with
  | read t sel =>
    obtain ⟨s', hread, haround⟩ := execRead_of_fatal hf t sel
    exact ⟨s', hread, haround.sameMachine⟩
  | step t tr n => exact ⟨_, execStep_of_fatal hf t tr n, (Around.respond s .fatal 0).sameMachine⟩
  | _ => exact hignored _ _

end Sys2Proof.Proofs
end

section
/-! PROOFS. RESET record by record: what it leaves in the record it is addressed to, in that record's lanes, and in
every other record. -/

namespace Sys2Proof.Machine

namespace State

/-- RESET of one record leaves R60's values in it and no other record changed. -/
theorem resetOne_proc? (s : State) (w v : Who) :
    (s.resetOne w).proc? v = if v = w then (s.proc? v).map (Proc.reset s.cfg) else s.proc? v := by
  rw [resetOne]
  split
  · next hf =>
    split
    · next hv =>
      subst hv
      cases hp : s.proc? v with
      | none => rfl
      | some p =>
        have hp' : p.fatal = true := by simpa [get, hp] using hf
        simp [Proc.reset, hp']
    · rfl
  · have hcalls : ∀ s1 sr, (emitStatusCalls s1 w sr).proc? v = s1.proc? v := fun s1 sr =>
      (Around.emitStatusCalls s1 w sr).proc? v
    rw [hcalls]
    split
    · next hv => rw [hv, proc?_upd_same]
    · next hv => rw [proc?_upd_ne s hv]

@[simp] theorem resetOne_cfg (s : State) (w : Who) : (s.resetOne w).cfg = s.cfg := by
  rw [resetOne]; split <;> simp

@[simp] theorem resetLanesFrom_top (k : Nat) : ∀ (s : State) (i : Nat), (s.resetLanesFrom i k).top = s.top := by
  induction k with
  | zero => exact fun _ _ => rfl
  | succ k ih =>
    intro s i
    rw [resetLanesFrom, ih]
    exact Option.some.inj (resetOne_proc? s (.lane i) .top)

/-- RESET of a row of lanes leaves R60's values in each of them and no other lane changed. -/
theorem resetLanesFrom_lanes (k : Nat) : ∀ (s : State) (i j : Nat),
    (s.resetLanesFrom i k).lanes[j]? =
      if i ≤ j ∧ j < i + k then s.lanes[j]?.map (Proc.reset s.cfg) else s.lanes[j]? := by
  induction k with
  | zero => intro s i j; rw [if_neg (by omega)]; rfl
  | succ k ih =>
    intro s i j
    have hone := resetOne_proc? s (.lane i) (.lane j)
    simp only [proc?_lane, Who.lane.injEq] at hone
    rw [resetLanesFrom, ih, resetOne_cfg, hone]
    by_cases hj : j = i
    · rw [if_neg (by omega), if_pos hj, if_pos (by omega)]
    · rw [if_neg hj]
      congr 1
      rw [eq_iff_iff]
      omega

/-- RESET of a live record resets it, a top-level one's lanes with it, and changes no other record (R231, R233). -/
theorem resetUnit_proc? {s : State} {w : Who} (alive : (s.get w).fatal = false) (v : Who) :
    (s.resetUnit w).proc? v = if v = w ∨ w = .top then (s.proc? v).map (Proc.reset s.cfg) else s.proc? v := by
  unfold resetUnit
  rw [if_neg (by simp [alive])]
  have htop := resetOne_proc? s .top
  cases w with
  | lane i => simp [resetOne_proc?]
  | top =>
    simp only [or_true, if_true]
    cases v with
    | top => simpa using htop .top
    | lane j =>
      have hlane : (s.resetOne .top).lanes[j]? = s.lanes[j]? := htop (.lane j)
      simp only [proc?_lane, resetLanesFrom_lanes, resetOne_cfg, hlane, Nat.zero_le, true_and, Nat.zero_add]
      split
      · rfl
      · next hj => rw [List.getElem?_eq_none (by omega)]; rfl

end State

/-- An accepted RESET of a lane leaves the reset table's values in it (R231, R233). -/
theorem exec_reset_lane_get {s : State} {i : Nat} (h : s.Accepts (.lane i) (.lane i)) :
    ∃ s', exec (.reset (.lane i)) s = .next s' ∧ s'.get (.lane i) = Proc.atReset s.cfg (s.get (.lane i)) := by
  have hexec : exec (.reset (.lane i)) s = .next (s.resetUnit (.lane i)) := by
    simp only [exec, execReset, onTarget_accepts h]
    cases s.ctx <;> rfl
  refine ⟨_, hexec, ?_⟩
  rw [State.get, State.resetUnit_proc? h.alive, if_pos (.inl rfl), State.proc?_eq_some_get h.present]
  simp [Proc.reset_eq_atReset, h.alive]

/-- The enable bits a configuration can hold: ET always, EF and EV by their capabilities (R32). -/
theorem srCap_enables (c : Config) :
    srET (srCap c) = true ∧ srEF (srCap c) = c.capFpu ∧ srEV (srCap c) = c.capVec := by
  simp only [srCap]
  cases c.cap64 <;> cases c.capFpu <;> cases c.capRvc <;> cases c.capVec <;> decide

/-- A lane's RESET has EF and EV as far as its capabilities go, and ET as configured (R170, R232). -/
theorem Proc.atReset_enables {c : Config} {p : Proc} (hlane : 0 ≤ p.laneIndex) :
    srEF (atReset c p).sr = c.capFpu ∧ srEV (atReset c p).sr = c.capVec ∧
      srET (atReset c p).sr = srET c.resetStatusRaw := by
  have hsr : (atReset c p).sr = (c.resetStatusRaw ||| 0x00000006) &&& srCap c := by simp [atReset, hlane]
  obtain ⟨het, hef, hev⟩ := srCap_enables c
  simp only [srET, srEF, srEV] at het hef hev ⊢
  simp only [hsr, BitVec.getLsbD_and, BitVec.getLsbD_or, het, hef, hev]
  simp

end Sys2Proof.Machine

namespace Sys2Proof.Proofs

open Sys2Proof Sys2Proof.Machine

/-- Settles O22: the reset table's status of a lane, masked by the capabilities, bit by bit. -/
theorem laneResetForcesEnables : Obligations.LaneResetForcesEnables := by
  intro s i haccepts hlane
  obtain ⟨s', hexec, hget⟩ := exec_reset_lane_get haccepts
  exact ⟨s', hexec, hget ▸ Proc.atReset_enables hlane⟩

end Sys2Proof.Proofs
end

section
/-! PROOFS. What one command can do to one record (`exec_leftBy`; from the harness, STEP included, `exec_idle_cases`),
and what follows for the run flag and the pending bits. -/

namespace Sys2Proof.Machine

/-! ### Records that only their latch can change in -/

/-- `q` is `p` but for the latch. -/
def Proc.SameButLatch (p q : Proc) : Prop := ∃ b, q = { p with fatal := b }

namespace Proc.SameButLatch

variable {p q r : Proc}

theorem of_eq (h : q = p) : p.SameButLatch q := ⟨p.fatal, h⟩

theorem trans (h : p.SameButLatch q) (h' : q.SameButLatch r) : p.SameButLatch r := by
  obtain ⟨a, rfl⟩ := h
  obtain ⟨b, rfl⟩ := h'
  exact ⟨b, rfl⟩

theorem run (h : p.SameButLatch q) : q.run = p.run := by obtain ⟨b, rfl⟩ := h; rfl
theorem pending (h : p.SameButLatch q) : q.pending = p.pending := by obtain ⟨b, rfl⟩ := h; rfl

theorem raiseFatal (s : State) (w : Who) (r : FatalReason) (v : Who) :
    (s.get v).SameButLatch ((s.raiseFatal w r).get v) :=
  (s.raiseFatal_get w r v).elim .of_eq fun h => ⟨true, h⟩

end Proc.SameButLatch

namespace Reaches

variable {A : Who → Prop} {s s' : State} {w : Who}

/-- A record that is not written keeps everything but its latch. -/
theorem get_of_not_mem (h : Reaches A s s') (hw : ¬A w) : (s.get w).SameButLatch (s'.get w) := by
  have hne : ∀ {v}, A v → w ≠ v := fun hv hwv => hw (hwv ▸ hv)
  refine h.keeps (fun s1 => (s.get w).SameButLatch (s1.get w)) (.of_eq rfl) ?_ ?_ ?_ ?_
  · exact fun s1 s2 ha hs => hs.trans (.of_eq (ha.get w))
  · exact fun s1 v f hv _ _ hs => hs.trans (.of_eq (State.get_upd_ne s1 (hne hv) f))
  · exact fun s1 i pc hv _ hs => hs.trans (.of_eq (State.get_upd_ne s1 (hne hv) _))
  · exact fun s1 v r _ _ hs => hs.trans (.raiseFatal s1 v r w)

end Reaches

/-! ### What one command leaves in one record -/

/-- What a command other than STEP leaves in the record it acts on. -/
def Proc.after (c : Config) (p : Proc) : Instr → Proc
  | .reset _ => p.reset c
  | .step _ _ _ => p
  | .deliverIrq _ k => p.deliver k
  | .read _ _ => p
  | .setStatus _ v => p.setStatus c v
  | .setFstatus _ v => p.setFloatingStatus v
  | .writeCr _ sel v => ((decodeSelector sel).bind fun r => writeSelector r v p).getD p
  | .clearPending _ m => p.clearPending m
  | .writeXpr _ i v => p.writeX i v
  | .writeFpr _ i v => p.writeF i v
  | .setVregs _ x f => p.setVregs x f
  | .setBanks _ m => p.setBanks c m
  | .recomputeVlmax _ => p.recomputeVlmax c
  | .setVl _ r => p.setVl r
  | .start .self _ => p
  | .start (.lane _) pc => p.start pc

/-- The command acts on the record `v`: its target names `v`, or it is a RESET of the top-level processor. -/
def ActsOn (i : Instr) (s : State) (v : Who) : Prop :=
  s.resolve i.target = some v ∨ ∃ t, i = .reset t ∧ s.resolve t = some .top

/-- The record `v` is as before but for its latch, or as the command `i`, which acts on it, leaves it. -/
def LeftBy (i : Instr) (s : State) (v : Who) (s' : State) : Prop :=
  (s.get v).SameButLatch (s'.get v) ∨ (ActsOn i s v ∧ s'.get v = (s.get v).after s.cfg i)

theorem LeftBy.raiseFatal (i : Instr) (s : State) (v w : Who) (r : FatalReason) : LeftBy i s v (s.raiseFatal w r) :=
  .inl (.raiseFatal s w r v)

theorem LeftBy.around {i : Instr} {s : State} {v : Who} {s' : State} (h : Around s s') : LeftBy i s v s' :=
  .inl (.of_eq (h.get v))

/-- A command whose write is an update of its target. -/
theorem LeftBy.upd {i : Instr} {s : State} {v w : Who} {f : Proc → Proc} (hw : s.resolve i.target = some w)
    (hf : f (s.get w) = (s.get w).after s.cfg i) : LeftBy i s v (s.upd w f) := by
  obtain h | ⟨rfl, h⟩ := s.get_upd_cases w v f
  · exact .inl (.of_eq h)
  · exact .inr ⟨.inl hw, h.trans hf⟩

theorem LeftBy.onTarget {i : Instr} {s : State} {v : Who} {t : Target} {k : Who → State} (ht : i.target = t)
    (hk : ∀ w, s.resolve i.target = some w → (s.get w).fatal = false → LeftBy i s v (k w)) :
    LeftBy i s v (s.onTarget t k) := by
  subst ht
  unfold State.onTarget
  split
  · exact .inl (.of_eq rfl)
  · split
    · exact .raiseFatal ..
    · next w hw =>
      split
      · exact .inl (.of_eq rfl)
      · next hf => exact hk w hw (by simpa using hf)

theorem LeftBy.resetUnit {t : Target} {s : State} {v w : Who} (hw : s.resolve t = some w)
    (alive : (s.get w).fatal = false) : LeftBy (.reset t) s v (s.resetUnit w) := by
  have hproc := State.resetUnit_proc? alive v
  split at hproc
  · next hv =>
    have hacts : ActsOn (.reset t) s v := by
      obtain rfl | rfl := hv
      · exact .inl hw
      · exact .inr ⟨t, rfl, hw⟩
    cases hp : s.proc? v with
    | none => exact .inl (.of_eq (by simp [State.get, hproc, hp]))
    | some p => exact .inr ⟨hacts, by simp [State.get, hproc, hp, Proc.after]⟩
  · exact .inl (.of_eq (by rw [State.get, State.get, hproc]))

/-- A command other than STEP leaves each record alone but for its latch, or as its one write to it has it. -/
theorem exec_leftBy {i : Instr} {s s' : State} (hi : ∀ t tr n, i ≠ .step t tr n) (h : exec i s = .next s') (v : Who) :
    LeftBy i s v s' := by
  cases i with
  | step t tr n => exact absurd rfl (hi t tr n)
  | reset t =>
    cases h
    refine LeftBy.onTarget rfl fun w hw alive => ?_
    split
    · exact .raiseFatal ..
    · exact .resetUnit hw alive
  | read t sel =>
    simp only [exec, execRead, Host.Outcome.next.injEq] at h
    subst h
    split
    · next w _ =>
      split
      · unfold readWhileFatal
        split
        · exact .around (.emit _ _)
        · exact .around (.answerFreely _)
      · unfold readAt
        split
        · exact .around (.emit _ _)
        · exact .raiseFatal ..
    · split
      · exact .around (.answerFreely _)
      · exact .raiseFatal ..
  | writeCr t sel value =>
    cases h
    refine LeftBy.onTarget rfl fun w hw _ => ?_
    unfold writeCrAt
    split
    · next p hp => exact .upd hw (by simp [Proc.after, hp])
    · exact .raiseFatal ..
  | start t pc =>
    cases h
    refine LeftBy.onTarget rfl fun w hw _ => ?_
    cases t with
    | self => exact .raiseFatal ..
    | lane j => exact .upd hw rfl
  | setStatus t value =>
    cases h
    exact LeftBy.onTarget rfl fun w hw _ => LeftBy.upd (f := Proc.setStatus s.cfg value) hw rfl
  | _ => cases h; exact .onTarget rfl fun w hw _ => .upd hw rfl

/-! ### Commands the harness issues -/

/-- The harness names the processor by 0xFFFF and a lane by its index (R92). -/
theorem resolve_idle {s : State} (hc : s.ctx = .idle) {t : Target} {w : Who} (h : s.resolve t = some w) :
    (t = .self ∧ w = .top) ∨ ∃ j, t = .lane j ∧ w = .lane j := by
  have hp : s.presented = .top := by simp [State.presented, hc]
  cases t with
  | self =>
    rw [State.resolve, hp] at h
    exact .inl ⟨rfl, (Option.some.inj h).symm⟩
  | lane j =>
    simp only [State.resolve] at h
    split at h
    · exact .inr ⟨j, rfl, (Option.some.inj h).symm⟩
    · cases h

theorem ActsOn.target_of_top {i : Instr} {s : State} (hc : s.ctx = .idle) (h : ActsOn i s .top) : i.target = .self := by
  obtain h | ⟨t, rfl, h⟩ := h
  all_goals
    obtain ⟨ht, -⟩ | ⟨j, -, hj⟩ := resolve_idle hc h
    · exact ht
    · cases hj

theorem ActsOn.target_of_lane {i : Instr} {s : State} {j : Nat} (hc : s.ctx = .idle) (h : ActsOn i s (.lane j)) :
    i.target = .lane j ∨ ∃ t, i = .reset t := by
  obtain h | ⟨t, ht, -⟩ := h
  · obtain ⟨-, htop⟩ | ⟨k, hk, hj⟩ := resolve_idle hc h
    · cases htop
    · exact .inl (hk.trans (by rw [Who.lane.inj hj]))
  · exact .inr ⟨t, ht⟩

/-- A STEP of a parked record changes no record (R145). -/
theorem stepUnit_of_parked {f : Target → Bool → BitVec 64 → State → Result} {w : Who} {tracing : Bool} {n : Nat}
    {s s' : State} (hrun : (s.get w).run = false) (h : stepUnit f w tracing n s = .next s') : Around s s' := by
  unfold stepUnit at h
  split at h
  · cases h; exact .respond _ _ _
  · rw [hrun] at h
    cases h; exact .respond _ _ _

/-- A lane's STEP changes nothing but latches in a record other than that lane, and in none if the lane is parked. -/
theorem stepLane_get {i : Nat} {tr : Bool} {n : BitVec 64} {s s' : State} (h : stepLane i tr n s = .next s') {v : Who}
    (hv : v ≠ .lane i ∨ (s.get (.lane i)).run = false) : (s.get v).SameButLatch (s'.get v) := by
  unfold stepLane at h
  split at h
  · cases h; exact .of_eq (State.respond_get ..)
  · split at h
    · obtain hne | hparked := hv
      · exact (stepUnit_lane_reaches h).get_of_not_mem hne
      · exact .of_eq ((stepUnit_of_parked hparked h).get v)
    · unfold refuseStep at h
      split at h
      · cases h; exact .of_eq (State.respond_get ..)
      · cases h; rw [State.respond_get]; exact .raiseFatal ..

/-- What a command of the harness does to a record: it is a STEP of the processor, a STEP of that lane, which runs, or
the one write of the command. -/
theorem exec_idle_cases {i : Instr} {s s' : State} (hc : s.ctx = .idle) (h : exec i s = .next s') (v : Who) :
    (∃ tr n, i = .step .self tr n) ∨ (∃ j tr n, i = .step (.lane j) tr n ∧ v = .lane j ∧ (s.get v).run = true) ∨
      LeftBy i s v s' := by
  cases i with
  | step t tr n =>
    cases t with
    | self => exact .inl ⟨tr, n, rfl⟩
    | lane j =>
      have hlane : stepLane j tr n s = .next s' := by rw [← h]; simp only [exec, execStep, hc, stepFromHarness]
      by_cases hv : v = .lane j ∧ (s.get v).run = true
      · exact .inr (.inl ⟨j, tr, n, rfl, hv⟩)
      · refine .inr (.inr (.inl (stepLane_get hlane ?_)))
        by_cases hj : v = .lane j
        · exact .inr (by simpa [hj] using hv)
        · exact .inl hj
  | _ => exact .inr (.inr (exec_leftBy (by simp) h v))

/-! ### The run flag and the pending bits -/

/-- WRITE_CR leaves the record alone or writes the selector its operand names (R182). -/
theorem Proc.after_writeCr (c : Config) (p : Proc) (t : Target) (sel : BitVec 8) (v : Word) :
    p.after c (.writeCr t sel v) = p ∨
      ∃ r, decodeSelector sel = some r ∧ writeSelector r v p = some (p.after c (.writeCr t sel v)) := by
  cases hq : (decodeSelector sel).bind fun r => writeSelector r v p with
  | none => exact .inl (by simp [after, hq])
  | some q =>
    obtain ⟨r, hr, hw⟩ := Option.bind_eq_some_iff.mp hq
    exact .inr ⟨r, hr, by simpa [after, hq] using hw⟩

/-- No selector that WRITE_CR accepts is the run flag (R182). -/
theorem writeSelector_run {r : Selector} {v : Word} {p q : Proc} (h : writeSelector r v p = some q) :
    q.run = p.run := by
  cases r <;> cases h <;> rfl

/-- Of the selectors that WRITE_CR accepts only `compare` touches the pending bits, and there the timer's (R183). -/
theorem writeSelector_pending {r : Selector} {v : Word} {p q : Proc} (h : writeSelector r v p = some q) :
    q.pending = p.pending ∨ (r = .compare ∧ q.pending = p.pending &&& ~~~irqBit timerIrq) := by
  cases r <;> cases h
  case compare => exact .inr ⟨rfl, rfl⟩
  all_goals exact .inl rfl

/-- Only DELIVER_IRQ and START set the run flag (R40, R224). -/
theorem Proc.after_run {c : Config} {p : Proc} {i : Instr} (hp : p.run = false) (h : (p.after c i).run = true) :
    (∃ t k, i = .deliverIrq t k) ∨ ∃ j pc, i = .start (.lane j) pc := by
  have hkept : (p.after c i).run ≠ p.run := by simp [hp, h]
  cases i with
  | deliverIrq t k => exact .inl ⟨t, k, rfl⟩
  | start t pc =>
    cases t with
    | self => exact absurd rfl hkept
    | lane j => exact .inr ⟨j, pc, rfl⟩
  | reset t =>
    simp only [after, reset_eq_atReset] at h hkept
    split at h
    · next hf => simp [hf] at hkept
    · cases h
  | writeCr t sel v =>
    obtain hsame | ⟨r, -, hw⟩ := p.after_writeCr c t sel v
    · exact absurd (congrArg Proc.run hsame) hkept
    · exact absurd (writeSelector_run hw) hkept
  | _ => exact absurd rfl hkept

/-- The one selector of `compare` (R99). -/
theorem decodeSelector_compare : ∀ sel : BitVec 8, decodeSelector sel = some .compare → sel = 0x0B := by decide

/-- The one bit of the timer's line (R204). -/
theorem timerBit_eq : ∀ n, n < 8 → (irqBit timerIrq).getLsbD n = true → n = 7 := by decide

/-- Only CLEAR_PENDING, a write of `compare` and RESET clear a pending bit (R39, R126, R183). -/
theorem Proc.after_pending {c : Config} {p : Proc} {i : Instr} {n : Nat} (hp : p.pending.getLsbD n = true)
    (h : (p.after c i).pending.getLsbD n = false) :
    (∃ t m, i = .clearPending t m ∧ m.getLsbD n = true) ∨ (n = 7 ∧ ∃ t v, i = .writeCr t 0x0B v) ∨
      ∃ t, i = .reset t := by
  have hkept : (p.after c i).pending ≠ p.pending := fun hsame => by simp [hsame, hp] at h
  have hn : n < 8 := BitVec.lt_of_getLsbD hp
  cases i with
  | clearPending t m =>
    refine .inl ⟨t, m, rfl, ?_⟩
    simpa [after, clearPending, hp, hn] using h
  | writeCr t sel v =>
    obtain hsame | ⟨r, hr, hw⟩ := p.after_writeCr c t sel v
    · exact absurd (congrArg Proc.pending hsame) hkept
    · obtain hsame | ⟨rfl, hpending⟩ := writeSelector_pending hw
      · exact absurd hsame hkept
      · have hbit : (irqBit timerIrq).getLsbD n = true := by simpa [hpending, hp, hn] using h
        exact .inr (.inl ⟨timerBit_eq n hn hbit, t, v, by rw [decodeSelector_compare sel hr]⟩)
  | reset t => exact .inr (.inr ⟨t, rfl⟩)
  | deliverIrq t k => simp [after, deliver, hp] at h
  | start t pc => cases t <;> exact absurd rfl hkept
  | _ => exact absurd rfl hkept

end Sys2Proof.Machine

namespace Sys2Proof.Proofs

open Sys2Proof Sys2Proof.Machine

/-- Settles O15: a command's one write sets a run flag only for DELIVER_IRQ and START, to the record they name. -/
theorem parkedIsWokenOnlyByDelivery : Obligations.ParkedIsWokenOnlyByDelivery := by
  intro i s s' hc hexec
  constructor
  · intro hparked hwoken
    have hkept : s'.top.run ≠ s.top.run := by simp [hparked, hwoken]
    obtain ⟨tr, n, rfl⟩ | ⟨j, tr, n, -, htop, -⟩ | hsame | ⟨hacts, hafter⟩ := exec_idle_cases hc hexec .top
    · simp only [exec, execStep, hc] at hexec
      exact absurd (congrArg Proc.run (stepUnit_of_parked (w := .top) hparked hexec).top) hkept
    · cases htop
    · exact absurd hsame.run hkept
    · have hself := hacts.target_of_top hc
      rw [State.get_top] at hafter
      obtain ⟨t, k, rfl⟩ | ⟨j, pc, rfl⟩ := Proc.after_run hparked (hafter ▸ hwoken)
      · exact ⟨k, congrArg (Instr.deliverIrq · k) hself⟩
      · cases hself
  · intro j hparked hwoken
    obtain hstep | ⟨k, tr, n, -, -, hrun⟩ | hsame | ⟨hacts, hafter⟩ := exec_idle_cases hc hexec (.lane j)
    · exact .inr (.inr hstep)
    · simp [hparked] at hrun
    · simp [hsame.run, hparked] at hwoken
    · have htarget := hacts.target_of_lane hc
      obtain ⟨t, k, rfl⟩ | ⟨m, pc, rfl⟩ := Proc.after_run hparked (hafter ▸ hwoken)
      · exact .inl ⟨k, by simpa [Instr.target] using htarget⟩
      · exact .inr (.inl ⟨pc, by simpa [Instr.target] using htarget⟩)

/-- Settles O16: a command's one write clears a pending bit only for CLEAR_PENDING, a write of `compare` and RESET. -/
theorem pendingClearedOnlyByAcknowledge : Obligations.PendingClearedOnlyByAcknowledge := by
  intro i s s' n hc hexec hset hclear
  obtain hstep | ⟨j, tr, k, -, htop, -⟩ | hsame | ⟨hacts, hafter⟩ := exec_idle_cases hc hexec .top
  · exact .inr (.inr (.inr hstep))
  · cases htop
  · have hpending : s'.top.pending = s.top.pending := hsame.pending
    rw [hpending, hset] at hclear
    cases hclear
  · have hself := hacts.target_of_top hc
    rw [State.get_top] at hafter
    obtain ⟨t, m, rfl, hm⟩ | ⟨rfl, t, v, rfl⟩ | ⟨t, rfl⟩ := Proc.after_pending hset (hafter ▸ hclear)
    · exact .inl ⟨m, congrArg (Instr.clearPending · m) hself, hm⟩
    · exact .inr (.inl ⟨rfl, v, congrArg (Instr.writeCr · 0x0B v) hself⟩)
    · exact .inr (.inr (.inl (congrArg Instr.reset hself)))

end Sys2Proof.Proofs
end

section
/-! PROOFS. The four encoded interfaces (R90): the fields a command word's decoding reads and its encoding fills, and the
words of the collaborators. -/

namespace Sys2Proof

/-! ### The fields of a command word -/

/-- A field reads alike in two words that agree under a mask covering it (R94). -/
theorem extractLsb'_eq_of_and_eq {n lo k : Nat} {x y m : BitVec n} (h : x &&& m = y &&& m)
    (hm : m.extractLsb' lo k = BitVec.allOnes k) : x.extractLsb' lo k = y.extractLsb' lo k := by
  have hmasked : ∀ z : BitVec n, (z &&& m).extractLsb' lo k = z.extractLsb' lo k := fun z => by
    rw [BitVec.extractLsb'_and, hm, BitVec.and_allOnes]
  rw [← hmasked x, h, hmasked y]

theorem eq_of_and_allOnes_eq {n : Nat} {x y : BitVec n} (h : x &&& BitVec.allOnes n = y &&& BitVec.allOnes n) : x = y := by
  rwa [BitVec.and_allOnes, BitVec.and_allOnes] at h

/-- The target field reads back (R92). -/
theorem decodeTarget_encodeTarget {t : Target} (h : t.wf = true) : decodeTarget (encodeTarget t) = t := by
  cases t with
  | self => rfl
  | lane i =>
    have hi : i < 0xFFFF := by simpa [Target.wf] using h
    have hnat : (BitVec.ofNat 16 i).toNat = i := by rw [BitVec.toNat_ofNat]; omega
    have hself : BitVec.ofNat 16 i ≠ 0xFFFF#16 := fun heq => by
      rw [heq] at hnat
      exact hi.ne hnat.symm
    rw [encodeTarget, decodeTarget, if_neg hself, hnat]

/-- Every value of the target field names the processor or a lane up to 0xFFFE (R92). -/
theorem decodeTarget_wf (t : BitVec 16) : (decodeTarget t).wf = true := by
  unfold decodeTarget
  split
  · rfl
  · next hself =>
    have hne : t.toNat ≠ 0xFFFF := fun h => hself (BitVec.eq_of_toNat_eq h)
    simp only [Target.wf, decide_eq_true_eq]
    omega

/-! ### Decoding -/

/-- The opcodes of R93's rows. -/
def listedOpcodes : List (BitVec 8) :=
  [0x01, 0x02, 0x03, 0x04, 0x10, 0x11, 0x20, 0x21, 0x30, 0x31, 0x40, 0x41, 0x42, 0x43, 0x44]

theorem Instr.opcode_mem_listedOpcodes (i : Instr) : i.opcode ∈ listedOpcodes := by
  cases i <;> simp [Instr.opcode, listedOpcodes]

/-- What a word decodes to has its opcode and its target field. -/
theorem decode_ok {w : CommandWord} {i : Instr} (h : decode w = .ok i) :
    i.opcode = fieldOp w ∧ i.target = decodeTarget (fieldT w) := by
  simp only [decode] at h
  split at h
  case h_16 => cases h
  all_goals
    next hop =>
    cases h
    exact ⟨BitVec.eq_of_toNat_eq hop.symm, rfl⟩

/-- The one reason to refuse a word is its opcode (R100). -/
theorem decode_error {w : CommandWord} {e : DecodeError} (h : decode w = .error e) : e = .badOpcode (fieldOp w) := by
  simp only [decode] at h
  split at h
  case h_16 => cases h; rfl
  all_goals cases h

/-- A word with a listed opcode names a command. -/
theorem exists_decode_of_mem {w : CommandWord} (h : fieldOp w ∈ listedOpcodes) : ∃ i, decode w = .ok i := by
  simp only [decode]
  split
  case h_16 => simp_all [listedOpcodes, ← BitVec.toNat_inj]
  all_goals exact ⟨_, rfl⟩

/-! ### Outcome words and fetch responses -/

theorem decodeOutcome_encodeOutcome (o : HandlerOutcome) : decodeOutcome (encodeOutcome o) = o := by
  cases o with
  | continueAt npc =>
    simp only [decodeOutcome, encodeOutcome, BitVec.extractLsb'_append_eq_right, BitVec.extractLsb'_append_eq_left]
    rfl
  | trap c =>
    have hc : (BitVec.setWidth 64 c ++ 1#2).extractLsb' 2 5 = c := by
      rw [BitVec.extractLsb'_append_eq_of_le (by decide), extractLsb'_setWidth (by decide)]
    simp only [decodeOutcome, encodeOutcome, BitVec.extractLsb'_append_eq_right, hc]
    rfl
  | laneComplete => rfl
  | halt => rfl

theorem decodeFetch_encodeFetch (r : FetchResult) : decodeFetch (encodeFetch r) = r := by
  cases r with
  | fetched insn h =>
    have hkind : (h ++ insn ++ 0#1).getLsbD 0 = false := by rw [BitVec.getLsbD_append]; rfl
    have hinsn : (h ++ insn ++ 0#1).extractLsb' 1 32 = insn := by
      rw [BitVec.extractLsb'_append_eq_of_le (by decide), BitVec.extractLsb'_append_eq_right]
    have hhandler : (h ++ insn ++ 0#1).extractLsb' 33 16 = h := by
      rw [BitVec.extractLsb'_append_eq_of_le (by decide), BitVec.extractLsb'_append_eq_left]
    rw [encodeFetch, decodeFetch, hkind, hinsn, hhandler]; rfl
  | fetchFault c =>
    have hkind : (BitVec.setWidth 48 c ++ 1#1).getLsbD 0 = true := by rw [BitVec.getLsbD_append]; rfl
    have hc : (BitVec.setWidth 48 c ++ 1#1).extractLsb' 1 5 = c := by
      rw [BitVec.extractLsb'_append_eq_of_le (by decide), extractLsb'_setWidth (by decide)]
    rw [encodeFetch, decodeFetch, hkind, hc]; rfl

end Sys2Proof

namespace Sys2Proof.Proofs

open Sys2Proof Sys2Proof.Machine

/-- Settles O1: every field of the encoded word reads back as what was put in it. -/
theorem decodeEncodeRoundTrip : Obligations.DecodeEncodeRoundTrip := by
  intro i hwf
  have htarget := decodeTarget_encodeTarget hwf
  cases i with
  | step t tr n =>
    simpa [encode, decode, Instr.target] using htarget
  | setVregs t x f =>
    have hx : (0#2 ++ f ++ 0#2 ++ x).extractLsb' 0 6 = x := BitVec.extractLsb'_append_eq_right
    have hf : (0#2 ++ f ++ 0#2 ++ x).extractLsb' 8 6 = f := by
      rw [BitVec.extractLsb'_append_eq_of_le (by decide), BitVec.extractLsb'_append_eq_of_le (by decide),
        BitVec.extractLsb'_append_eq_right]
    simpa [encode, decode, Instr.target, hx, hf] using htarget
  | _ => simpa [encode, decode, Instr.target, extractLsb'_setWidth] using htarget

/-- Settles O2: the fields a command is decoded from are those its encoding would fill. -/
theorem decodedCommandIsEncodable : Obligations.DecodedCommandIsEncodable := by
  intro w i h
  obtain ⟨hop, htarget⟩ := decode_ok h
  exact ⟨by rw [Instr.wf, htarget]; exact decodeTarget_wf _, hop⟩

/-- Settles O3: a decoded command has a listed opcode, and every listed opcode decodes to one. -/
theorem unlistedOpcodesRejected : Obligations.UnlistedOpcodesRejected := by
  intro w
  change fieldOp w ∉ listedOpcodes ↔ _
  constructor
  · intro hunlisted
    cases h : decode w with
    | ok i => exact absurd ((decode_ok h).1 ▸ i.opcode_mem_listedOpcodes) hunlisted
    | error e => rw [decode_error h]
  · intro hrejected hlisted
    obtain ⟨i, hi⟩ := exists_decode_of_mem hlisted
    rw [hi] at hrejected
    cases hrejected

/-- Settles O4: each row reads its operands from fields its mask covers. -/
theorem unnamedOperandBitsIgnored : Obligations.UnnamedOperandBitsIgnored := by
  intro w w' hop ht ha hv
  unfold namedOperandBits at ha hv
  simp only [decode, ← hop, ← ht]
  split
  all_goals
    rename_i hrow
    simp only [hrow] at ha hv
  case h_1 | h_13 | h_16 => rfl
  case h_2 =>
    have hbit : (fieldA w).extractLsb' 0 1 = (fieldA w').extractLsb' 0 1 := extractLsb'_eq_of_and_eq ha (by decide)
    simp only [BitVec.getLsbD_eq_extractLsb', hbit, eq_of_and_allOnes_eq hv]
  case h_3 | h_4 | h_8 => rw [extractLsb'_eq_of_and_eq ha]; decide
  case h_5 | h_6 => rw [extractLsb'_eq_of_and_eq hv]; decide
  case h_7 | h_9 | h_10 => rw [eq_of_and_allOnes_eq hv, extractLsb'_eq_of_and_eq ha]; decide
  case h_11 =>
    have hfield : ∀ lo, (0x3F3F#16).extractLsb' lo 6 = BitVec.allOnes 6 →
        (fieldA w).extractLsb' lo 6 = (fieldA w').extractLsb' lo 6 := fun _ => extractLsb'_eq_of_and_eq ha
    rw [hfield 0 (by decide), hfield 8 (by decide)]
  case h_12 => rw [eq_of_and_allOnes_eq ha]
  case h_14 | h_15 => rw [eq_of_and_allOnes_eq hv]

/-- Settles O6: the low field of each word is its kind, and the fields above it hold what was put in them. -/
theorem collaboratorWordsRoundTrip : Obligations.CollaboratorWordsRoundTrip := by
  refine ⟨decodeOutcome_encodeOutcome, decodeFetch_encodeFetch, fun w => ?_, fun w => ?_, fun n hn => ⟨fun e => ?_, ?_⟩⟩
  · refine ⟨?_, ?_, ?_, ?_⟩ <;> intro hkind <;> simp [decodeOutcome, hkind]
  · refine ⟨?_, ?_⟩ <;> intro hfault <;> rw [decodeFetch, hfault] <;> rfl
  · rw [encodeStepResponse, BitVec.extractLsb'_append_eq_left, BitVec.toNat_ofNat, Nat.mod_eq_of_lt hn]
  · have hexit : ∀ e, (encodeStepResponse e n).extractLsb' 0 3 = e.code := fun _ => BitVec.extractLsb'_append_eq_right
    simp only [hexit]
    decide

/-- Settles O5: the words of R103, each decoded or encoded by evaluation. -/
theorem workedEncodingsDecode : Obligations.WorkedEncodingsDecode := by
  unfold Obligations.WorkedEncodingsDecode
  decide

end Sys2Proof.Proofs
end

section
/-! PROOFS. Commands that end in FATAL before they do anything (R92, R95, R100, R171): each leaves the state as it was but
for the latch of the record it was presented to. -/

namespace Sys2Proof.Machine

variable {s : State}

/-- A lane index the presented record has no lane for names no record (R92, R171). -/
theorem State.resolve_lane_eq_none {j : Nat} (hbad : s.presented ≠ .top ∨ s.cfg.maxLanes ≤ j) :
    s.resolve (.lane j) = none := by
  rw [State.resolve, if_neg]
  rintro ⟨htop, hlt⟩
  exact hbad.elim (· htop) fun hle => absurd hlt (by omega)

section Alive

variable (alive : (s.get s.presented).fatal = false)
include alive

/-- A target that names no record is FATAL(bad_target) (R92). -/
theorem onTarget_of_resolve_none {t : Target} (ht : s.resolve t = none) (k : Who → State) :
    s.onTarget t k = s.latched s.presented .badTarget := by
  simp [State.onTarget, alive, ht, State.raiseFatal_eq_latched]

/-- READ of a target that names no record is FATAL(bad_target) too (R92, R181). -/
theorem execRead_of_resolve_none {t : Target} (ht : s.resolve t = none) (sel : BitVec 8) :
    execRead t sel s = .next (s.latched s.presented .badTarget) := by
  simp [execRead, alive, ht, State.raiseFatal_eq_latched]

/-- A refused STEP latches the presented record and answers (FATAL, 0) (R92, R95; log entry 8). -/
theorem refuseStep_of_alive (r : FatalReason) :
    refuseStep r s = .next ((s.latched s.presented r).respond .fatal 0) := by
  simp [refuseStep, alive, State.raiseFatal_eq_latched]

/-- STEP of a lane index that names no lane is refused, whoever issues it (R92, R171). -/
theorem execStep_of_bad_target {j : Nat} (hbad : s.presented ≠ .top ∨ s.cfg.maxLanes ≤ j) (tr : Bool) (n : BitVec 64) :
    execStep (.lane j) tr n s = refuseStep .badTarget s := by
  have hlane : s.presented = .top → ∀ tr, stepLane j tr n s = refuseStep .badTarget s := fun htop tr => by
    have hle : ¬j < s.cfg.maxLanes := Nat.not_lt.mpr (hbad.resolve_left (· htop))
    simp [stepLane, alive, hle]
  cases hc : s.ctx with
  | idle =>
    simp only [execStep, hc]
    exact hlane (by simp [State.presented, hc]) tr
  | exec who owner =>
    cases who with
    | top =>
      simp only [execStep, hc]
      exact hlane (by simp [State.presented, hc]) owner
    | lane i => simp only [execStep, hc, stepFromLane]

end Alive

end Sys2Proof.Machine

namespace Sys2Proof.Proofs

open Sys2Proof Sys2Proof.Machine

/-- Settles O24: a bad target is found before the command does anything; only STEP adds its response. -/
theorem badTargetIsFatal : Obligations.BadTargetIsFatal := by
  intro i s j htarget alive hbad
  have hnone := State.resolve_lane_eq_none hbad
  have hlatched : ∀ {t} k, t = .lane j → ∃ s', (.next (s.onTarget t k) : Result) = .next s' ∧
      (s.latched s.presented .badTarget).SameMachine s' := fun k ht =>
    ⟨_, rfl, by subst ht; rw [onTarget_of_resolve_none alive hnone]; exact ⟨rfl, rfl, rfl⟩⟩
  cases i with
  | read t sel =>
    obtain rfl : t = .lane j := htarget
    exact ⟨_, execRead_of_resolve_none alive hnone sel, rfl, rfl, rfl⟩
  | step t tr n =>
    obtain rfl : t = .lane j := htarget
    exact ⟨_, (execStep_of_bad_target alive hbad tr n).trans (refuseStep_of_alive alive _), rfl, rfl, rfl⟩
  | _ => exact hlatched _ htarget

/-- Settles O8: the word is taken off the port and refused by its opcode. -/
theorem illegalCommandIsFatal : Obligations.IllegalCommandIsFatal := by
  intro s w rest op hport hdecode alive
  have hpresented : (State.presented { s with commands := rest }) = s.presented := rfl
  have hget : State.get { s with commands := rest } s.presented = s.get s.presented := State.get_congr rfl rfl _
  simp [Machine.step, hport, hdecode, State.rejectOpcode, hpresented, hget, alive, State.raiseFatal_eq_latched]

/-- Settles O23: a handler that names its own record presents to it a command only the harness may issue. -/
theorem reentrantCommandIsFatal : Obligations.ReentrantCommandIsFatal := by
  intro s w tracing tr n hc alive
  have hpresented : s.presented = w := by simp [State.presented, hc]
  constructor
  · simp [exec, execReset, State.onTarget, State.resolve, hpresented, alive, hc, State.raiseFatal_eq_latched]
  · have hrefused : exec (.step .self tr n) s = refuseStep .reentrant s := by
      cases w <;> simp only [exec, execStep, hc, stepFromTop, stepFromLane]
    rw [hrefused, refuseStep_of_alive (hpresented ▸ alive), hpresented]
    rfl

end Sys2Proof.Proofs
end

section
/-! PROOFS. The selectors of READ (R99). -/

namespace Sys2Proof.Machine

/-- A flag reads as 0 or 1 (R99). -/
theorem setWidth_ofBool (b : Bool) : (BitVec.ofBool b).setWidth 64 = if b then 1 else 0 := by cases b <;> rfl

/-- The width reads as 32 or 64 (R99). -/
theorem ofNat_bits (x : XprLen) : BitVec.ofNat 64 x.bits = if x = .w64 then 64 else 32 := by cases x <;> rfl

/-- The selectors in no row of R99's table. -/
theorem decodeSelector_eq_none_iff :
    ∀ sel : BitVec 8, decodeSelector sel = none ↔ (0x1B ≤ sel.toNat ∧ sel.toNat < 0x20) ∨ 0x60 ≤ sel.toNat := by
  decide

/-- The selectors of the integer registers and of the floating ones (R99). -/
theorem decodeSelector_register :
    ∀ i : BitVec 5, decodeSelector (0x20 + i.setWidth 8) = some (.x i) ∧ decodeSelector (0x40 + i.setWidth 8) = some (.f i) := by
  decide

end Sys2Proof.Machine

namespace Sys2Proof.Proofs

open Sys2Proof Sys2Proof.Machine

/-- Settles O57: R99's table row by row, and the selector bytes between and after its rows. -/
theorem selectorTable : Obligations.SelectorTable := by
  intro c p
  refine ⟨?_, fun i => ⟨(decodeSelector_register i).1, (decodeSelector_register i).2, rfl, rfl⟩, decodeSelector_eq_none_iff⟩
  simp [decodeSelector, readSelector, setWidth_ofBool, ofNat_bits]

end Sys2Proof.Proofs
end

section
/-! PROOFS. What the answer of a STEP says of the record that was stepped (R98, R136, R142 to R146): nothing in the loop
moves that record's `cycle`, so only the way the loop ends does. -/

namespace Sys2Proof.Machine

/-! ### Commands that leave a record's `cycle` alone -/

/-- No write to one record moves its identity as top-level record or lane (R21). -/
theorem UnitStep.laneIndex_eq {c : Config} {p q : Proc} (h : UnitStep c p q) : q.laneIndex = p.laneIndex := by
  cases h with
  | writeCr r v q hw => cases r <;> cases hw <;> rfl
  | reset => rw [Proc.reset_eq_atReset]; split <;> rfl
  | _ => rfl

/-- `s` leads to `s'`, and the record `w` has the same `cycle` in both. -/
structure KeepsCycle (w : Who) (s s' : State) : Prop where
  reaches : Reaches (fun _ => True) s s'
  cycle : (s'.get w).cycle = (s.get w).cycle

namespace KeepsCycle

variable {w : Who} {s s1 s' : State}

theorem refl : KeepsCycle w s s := ⟨.refl, rfl⟩

theorem trans (h : KeepsCycle w s s1) (h' : KeepsCycle w s1 s') : KeepsCycle w s s' :=
  ⟨h.reaches.trans h'.reaches, h'.cycle.trans h.cycle⟩

theorem around (h : Around s s') : KeepsCycle w s s' := ⟨h.reaches, by rw [h.get]⟩

theorem sameButLatch (hr : Reaches (fun _ => True) s s') (h : (s.get w).SameButLatch (s'.get w)) : KeepsCycle w s s' :=
  ⟨hr, by obtain ⟨b, hb⟩ := h; rw [hb]⟩

/-- A write to any record that does not touch `cycle`. -/
theorem upd {v : Who} {f : Proc → Proc} (alive : (s.get v).fatal = false)
    (hf : UnitStep s.cfg (s.get v) (f (s.get v))) (hcycle : ∀ p, (f p).cycle = p.cycle) : KeepsCycle w s (s.upd v f) :=
  ⟨.one v f trivial alive hf, State.get_upd_field Proc.cycle s v w f hcycle⟩

theorem raiseFatal {v : Who} {r : FatalReason} (alive : (s.get v).fatal = false) : KeepsCycle w s (s.raiseFatal v r) :=
  .sameButLatch (.latch .refl v r trivial alive) (.raiseFatal s v r w)

theorem foldl {β : Type} {g : State → β → State} (hg : ∀ s b, KeepsCycle w s (g s b)) (bs : List β) :
    ∀ s, KeepsCycle w s (bs.foldl g s) := by
  induction bs with
  | nil => exact fun _ => .refl
  | cons b bs ih => exact fun s => (hg s b).trans (ih _)

theorem ctx_eq (h : KeepsCycle w s s') : s'.ctx = s.ctx := by
  obtain ⟨-, hctx, -⟩ := h.reaches.around_keeps
  exact hctx

/-- The context plays no part in the writes. -/
theorem setCtx (c : Context) (h : KeepsCycle w s s') : KeepsCycle w { s with ctx := c } { s' with ctx := c } :=
  ⟨h.reaches.setCtx c, h.cycle⟩

/-- Records neither appear nor vanish. -/
theorem present (h : KeepsCycle w s s') (hw : (s.proc? w).isSome = true) : (s'.proc? w).isSome = true := by
  obtain ⟨-, -, -, hlength, -⟩ := h.reaches.around_keeps
  cases w with
  | top => rfl
  | lane i => simpa [hlength] using hw

theorem laneIndex (h : KeepsCycle w s s') : (s'.get w).laneIndex = (s.get w).laneIndex := by
  have hupd : ∀ (s1 : State) v f, (f (s1.get v)).laneIndex = (s1.get v).laneIndex →
      ((s1.upd v f).get w).laneIndex = (s1.get w).laneIndex := fun s1 v f hf => by
    obtain hsame | ⟨rfl, hwritten⟩ := s1.get_upd_cases v w f
    · rw [hsame]
    · rw [hwritten, hf]
  refine h.reaches.keeps (fun s1 => (s1.get w).laneIndex = (s.get w).laneIndex) rfl ?_ ?_ ?_ ?_
  · exact fun _ _ ha hs => by rw [ha.get, hs]
  · exact fun s1 v f _ _ hf hs => (hupd s1 v f hf.laneIndex_eq).trans hs
  · exact fun s1 i pc _ _ hs => (hupd s1 (.lane i) _ rfl).trans hs
  · intro s1 v r _ _ hs
    obtain hsame | hlatched := s1.raiseFatal_get v r w <;> rw [← hs]
    · rw [hsame]
    · rw [hlatched]

end KeepsCycle

/-- No selector that WRITE_CR accepts is `cycle` (R182). -/
theorem writeSelector_cycle {r : Selector} {v : Word} {p q : Proc} (h : writeSelector r v p = some q) :
    q.cycle = p.cycle := by
  cases r <;> cases h <;> rfl

/-- Of the commands other than STEP only RESET writes `cycle` (R36). -/
theorem Proc.after_cycle (c : Config) (p : Proc) {i : Instr} (hi : ∀ t, i ≠ .reset t) :
    (p.after c i).cycle = p.cycle := by
  cases i with
  | reset t => exact absurd rfl (hi t)
  | writeCr t sel v =>
    obtain hsame | ⟨r, -, hw⟩ := p.after_writeCr c t sel v
    · rw [hsame]
    · exact writeSelector_cycle hw
  | start t pc => cases t <;> rfl
  | _ => rfl

/-- RESET is the only command besides STEP that may move a record's `cycle`. -/
theorem exec_keepsCycle {i : Instr} {s s' : State} (hreset : ∀ t, i ≠ .reset t) (hstep : ∀ t tr n, i ≠ .step t tr n)
    (h : exec i s = .next s') (w : Who) : KeepsCycle w s s' := by
  obtain hsame | ⟨-, hafter⟩ := exec_leftBy hstep h w
  · exact .sameButLatch (exec_reaches h) hsame
  · exact ⟨exec_reaches h, by rw [hafter, Proc.after_cycle _ _ hreset]⟩

/-- A RESET that the handler of `w` issues does not reset `w`: to itself it is re-entrant (R95), and no lane it names is
`w`. -/
theorem execReset_keepsCycle {w : Who} {tracing : Bool} {t : Target} {s s' : State} (hc : s.ctx = .exec w tracing)
    (h : exec (.reset t) s = .next s') : KeepsCycle w s s' := by
  have hr := exec_reaches h
  have hpresented : s.presented = w := by simp [State.presented, hc]
  refine .sameButLatch hr ?_
  cases hf : (s.get w).fatal with
  | true => exact .of_eq (hr.get_of_fatal hf)
  | false =>
    cases t with
    | self =>
      simp only [exec, execReset, State.onTarget, State.resolve, hpresented, hf, hc, Host.Outcome.next.injEq] at h
      exact h ▸ .raiseFatal ..
    | lane j =>
      obtain hsame | ⟨hacts, -⟩ := exec_leftBy (by simp) h w
      · exact hsame
      · have hname : ∀ v, s.resolve (.lane j) = some v → v = .lane j ∧ w = .top := fun v hv => by
          simp only [State.resolve, hpresented] at hv
          split at hv
          · next hj => exact ⟨(Option.some.inj hv).symm, hj.1⟩
          · cases hv
        obtain hv | ⟨t, ht, hv⟩ := hacts
        · obtain ⟨hlane, htop⟩ := hname w hv
          cases hlane.symm.trans htop
        · cases ht
          cases (hname .top hv).1

/-! ### What an iteration leaves -/

/-- The STEPs a handler of `w` may issue leave `w`'s `cycle` alone. -/
abbrev HandlerStepsKeepCycle (w : Who) (tracing : Bool) (f : Target → Bool → BitVec 64 → State → Result) : Prop :=
  ∀ t tr n (s s' : State), s.ctx = .exec w tracing → f t tr n s = .next s' → KeepsCycle w s s'

/-- What an iteration of the record `w` from `s` leaves of `cycle` and the latch, by the way it ended. -/
def Iteration.Leaves (w : Who) (s : State) : Iteration → Prop
  | .retired s' => KeepsCycle w s s' ∧ (s'.get w).fatal = false
  | .laneComplete s' => KeepsCycle w s s' ∧ (s'.get w).laneIndex ≠ -1
  | .halted s' => (s'.get w).run = false ∧ (s'.get w).cycle = 0
  | .fatal s' => KeepsCycle w s s' ∧ (s'.get w).fatal = true
  | .stopped _ => True
  | .refused _ => True

theorem Iteration.Leaves.after {w : Who} {s s1 : State} {r : Iteration} (h1 : KeepsCycle w s s1)
    (h : r.Leaves w s1) : r.Leaves w s := by
  cases r with
  | retired s' => exact ⟨h1.trans h.1, h.2⟩
  | laneComplete s' => exact ⟨h1.trans h.1, h.2⟩
  | halted s' => exact h
  | fatal s' => exact ⟨h1.trans h.1, h.2⟩
  | stopped e => trivial
  | refused e => trivial

section Iterations

variable {f : Target → Bool → BitVec 64 → State → Result} {w : Who} {tracing : Bool} {s : State}

theorem enterTrap_keepsCycle (alive : (s.get w).fatal = false) (c : Cause) :
    KeepsCycle w s (s.enterTrap w tracing c) := by
  refine ⟨.enterTrap w tracing c trivial alive, ?_⟩
  unfold State.enterTrap
  split
  · exact (KeepsCycle.raiseFatal alive).cycle
  · refine (State.get_upd_field Proc.cycle _ w w (Proc.enterTrap s.cfg c _) fun _ => rfl).trans ?_
    rw [(Around.badAddress _ w).get, State.emitStatusCalls_get]
    split <;> simp

theorem trapIteration_leaves (alive : (s.get w).fatal = false) (c : Cause) :
    (trapIteration w tracing c s).Leaves w s := by
  have hkeep := enterTrap_keepsCycle (tracing := tracing) alive c
  unfold trapIteration
  simp only
  split
  · next hf => exact ⟨hkeep, hf⟩
  · next hf => exact ⟨hkeep, by simpa using hf⟩

/-- RESET of a live record leaves the reset table's values in it (R60, R231). -/
theorem resetUnit_get (hw : (s.proc? w).isSome = true) (alive : (s.get w).fatal = false) :
    (s.resetUnit w).get w = Proc.atReset s.cfg (s.get w) := by
  rw [State.get, State.resetUnit_proc? alive, if_pos (.inl rfl), State.proc?_eq_some_get hw]
  simp [Proc.reset_eq_atReset, alive]

theorem finishIteration_leaves (hw : (s.proc? w).isSome = true) (alive : (s.get w).fatal = false)
    (o : HandlerOutcome) : (finishIteration w tracing o s).Leaves w s := by
  cases o with
  | continueAt npc =>
    have hlatch := State.get_upd_field Proc.fatal s w w (fun p => { p with pc := npc }) fun _ => rfl
    exact ⟨.upd alive (.writePc npc) fun _ => rfl, hlatch.trans alive⟩
  | trap c => exact trapIteration_leaves alive c
  | laneComplete =>
    simp only [finishIteration]
    split
    · exact ⟨.raiseFatal alive, State.raiseFatal_get_fatal hw _⟩
    · next hlane => exact ⟨.refl, hlane⟩
  | halt =>
    simp only [finishIteration, Iteration.Leaves, resetUnit_get hw alive]
    exact ⟨rfl, rfl⟩

/-- The commands other than STEP mean in a handler what they mean anywhere (R149). -/
theorem runInstr_eq_exec {i : Instr} (hi : ∀ t tr n, i ≠ .step t tr n) : runInstr f i s = exec i s := by
  cases i with
  | step t tr n => exact absurd rfl (hi t tr n)
  | _ => rfl

theorem runWord_keepsCycle (hstep : HandlerStepsKeepCycle w tracing f) {c : CommandWord} {s' : State}
    (hc : s.ctx = .exec w tracing) (h : runWord f c s = .next s') : KeepsCycle w s s' := by
  unfold runWord at h
  split at h
  · next i _ =>
    cases i with
    | step t tr n => exact hstep t tr n s s' hc h
    | reset t => exact execReset_keepsCycle hc h
    | _ => exact exec_keepsCycle (by simp) (by simp) ((runInstr_eq_exec (by simp)).symm.trans h) w
  · cases h
    unfold State.rejectOpcode
    split
    · exact .refl
    · next hf => exact .raiseFatal (by simpa using hf)

theorem runCommands_keepsCycle (hstep : HandlerStepsKeepCycle w tracing f) (ws : List CommandWord) :
    ∀ s s' : State, s.ctx = .exec w tracing → runCommands f ws s = .next s' → KeepsCycle w s s' := by
  induction ws with
  | nil => intro s s' _ h; cases h; exact .refl
  | cons c ws ih =>
    intro s s' hc h
    obtain ⟨s1, hword, h⟩ := andThen_next h
    have h1 := runWord_keepsCycle hstep hc hword
    exact h1.trans (ih s1 s' (h1.ctx_eq.trans hc) h)

theorem executePhase_leaves (hstep : HandlerStepsKeepCycle w tracing f) (hw : (s.proc? w).isSome = true)
    (insn : InsnWord) (h : HandlerToken) : (executePhase f w tracing insn h s).Leaves w s := by
  have h0 : Around s (s.emit (.callHandler w h insn (s.get w).pc)).execution.2 := (Around.emit _ _).trans (.execution _)
  unfold executePhase
  simp only
  generalize (s.emit (.callHandler w h insn (s.get w).pc)).execution = r at h0
  split
  · next s' hrun =>
    have hback : ({ r.2 with ctx := s.ctx } : State) = r.2 := by rw [← h0.ctx]
    have hkeep : KeepsCycle w s { s' with ctx := s.ctx } := by
      have hcommands := (runCommands_keepsCycle hstep _ _ _ rfl hrun).setCtx s.ctx
      simp only [hback] at hcommands
      exact (KeepsCycle.around h0).trans hcommands
    split
    · trivial
    · split
      · next hf => exact ⟨hkeep, hf⟩
      · next hf => exact .after hkeep (finishIteration_leaves (hkeep.present hw) (by simpa using hf) _)
  · trivial
  · trivial

theorem deliverUnit_keepsCycle (v : Who) (k : BitVec 3) : KeepsCycle w s (deliverUnit v k s) := by
  unfold deliverUnit
  split
  · exact .refl
  · next hf => exact .upd (by simpa using hf) (.deliver k) fun _ => rfl

theorem landDeliveries_keepsCycle (v : Who) : KeepsCycle w s (landDeliveries v s) := by
  cases v with
  | top =>
    exact (KeepsCycle.around (.nextDeliveries s)).trans
      (.foldl (fun s (d : Delivery) => exec_keepsCycle (i := .deliverIrq d.target d.kind) (by simp) (by simp) rfl w) _ _)
  | lane i =>
    exact (KeepsCycle.around (.nextLaneDeliveries s)).trans (.foldl (fun s k => deliverUnit_keepsCycle (.lane i) k) _ _)

theorem iterate_leaves (hstep : HandlerStepsKeepCycle w tracing f) (hw : (s.proc? w).isSome = true) :
    (iterate f w tracing s).Leaves w s := by
  have h0 : KeepsCycle w s (landDeliveries w s) := landDeliveries_keepsCycle w
  unfold iterate
  generalize landDeliveries w s = s1 at h0
  refine .after h0 ?_
  simp only
  split
  · next hf => exact ⟨.refl, hf⟩
  · next hf =>
    have alive : (s1.get w).fatal = false := by simpa using hf
    have hfetch : KeepsCycle w s1 (s1.fetch w).2 := .around (.fetch s1 w)
    split
    · exact trapIteration_leaves alive _
    · split
      · exact .after hfetch (trapIteration_leaves (by rw [(Around.fetch s1 w).get]; exact alive) _)
      · refine .after hfetch ?_
        have hpresent := hfetch.present (h0.present hw)
        split
        · have hemit := fun e => KeepsCycle.around (w := w) (Around.emit (s1.fetch w).2 e)
          exact .after (hemit _) (executePhase_leaves hstep ((hemit _).present hpresent) _ _)
        · exact executePhase_leaves hstep hpresent _ _

end Iterations

/-! ### What the answer says -/

/-- What the exit code and the count `r` of a STEP of `w` with budget `n` say of the states before and after it. -/
def ExitTells (w : Who) (s : State) (n r : Nat) (s' : State) : StepExit → Prop
  | .budget => r = n ∧ (s'.get w).cycle = (s.get w).cycle + BitVec.ofNat 64 r
  | .laneComplete => (s.get w).laneIndex ≠ -1 ∧ (s'.get w).cycle = (s.get w).cycle + BitVec.ofNat 64 r
  | .halted => r < n ∧ (s'.get w).run = false ∧ (s'.get w).cycle = 0
  | .parked => r = 0 ∧ (s.get w).run = false ∧ s'.get w = s.get w
  | .fatal => (s'.get w).fatal = true ∧ (s'.get w).cycle = (s.get w).cycle

/-- A STEP of `w` with budget `n` from `s` ended in `s'`, with an answer that tells what happened. -/
def StepAnswers (w : Who) (s : State) (n : Nat) (s' : State) : Prop :=
  ∃ (e : StepExit) (r : Nat),
    s'.events.head? = some (.stepResponse (encodeStepResponse e r)) ∧ r ≤ n ∧ ExitTells w s n r s' e

section Answers

variable {f : Target → Bool → BitVec 64 → State → Result} {w : Who} {tracing : Bool} {s s' : State}

/-- The end of a STEP advances `cycle` by the retired count (R146). -/
theorem closeStep_cycle (hw : (s.proc? w).isSome = true) (e : StepExit) (r : Nat) :
    ((s.closeStep w e r).get w).cycle = (s.get w).cycle + BitVec.ofNat 64 r := by
  rw [State.closeStep, State.respond_get, State.get_upd_same hw]
  rfl

theorem loop_answers (hstep : HandlerStepsKeepCycle w tracing f) (hw : (s.proc? w).isSome = true) (k : Nat) :
    ∀ (r : Nat) (s1 : State), KeepsCycle w s s1 → loop f w tracing k r s1 = .next s' →
      StepAnswers w s (r + k) s' := by
  induction k with
  | zero =>
    intro r s1 h1 h
    cases h
    exact ⟨.budget, r, rfl, by omega, rfl, by rw [closeStep_cycle (h1.present hw), h1.cycle]⟩
  | succ k ih =>
    intro r s1 h1 h
    have hleaves := iterate_leaves hstep (h1.present hw)
    simp only [loop] at h
    split at h
    · next s2 hi =>
      rw [hi] at hleaves
      have hrest := ih (r + 1) s2 (h1.trans hleaves.1) h
      rwa [show r + 1 + k = r + (k + 1) by omega] at hrest
    · next s2 hi =>
      rw [hi] at hleaves
      obtain ⟨h2, hlane⟩ := hleaves
      cases h
      have h2 := h1.trans h2
      exact ⟨.laneComplete, r, rfl, by omega, h2.laneIndex ▸ hlane, by rw [closeStep_cycle (h2.present hw), h2.cycle]⟩
    · next s2 hi =>
      rw [hi] at hleaves
      cases h
      exact ⟨.halted, r, rfl, by omega, by omega, by simpa [Iteration.Leaves] using hleaves⟩
    · next s2 hi =>
      rw [hi] at hleaves
      obtain ⟨h2, hf⟩ := hleaves
      cases h
      exact ⟨.fatal, r, rfl, by omega, by simpa using hf, by simpa using (h1.trans h2).cycle⟩
    · cases h
    · cases h

theorem stepUnit_answers (hstep : HandlerStepsKeepCycle w tracing f) (hw : (s.proc? w).isSome = true)
    (alive : (s.get w).fatal = false) {n : Nat} (h : stepUnit f w tracing n s = .next s') : StepAnswers w s n s' := by
  unfold stepUnit at h
  rw [if_neg (by simp [alive])] at h
  split at h
  · simpa using loop_answers hstep hw n 0 s .refl h
  · next hrun =>
    cases h
    exact ⟨.parked, 0, rfl, Nat.zero_le _, rfl, by simpa using hrun, State.respond_get ..⟩

end Answers

/-- A refused STEP writes no record but latches (R92, R95). -/
theorem refuseStep_keepsCycle {w : Who} {r : FatalReason} {s s' : State} (h : refuseStep r s = .next s') :
    KeepsCycle w s s' := by
  unfold refuseStep at h
  split at h
  · cases h; exact .around (.respond ..)
  · next hf => cases h; exact (KeepsCycle.raiseFatal (by simpa using hf)).trans (.around (.respond ..))

/-- The STEPs of a lane's handler are refused. -/
theorem stepFromLane_handlerStepsKeepCycle (w : Who) (tracing : Bool) : HandlerStepsKeepCycle w tracing stepFromLane := by
  intro t tr n s s' _ h
  cases t <;> exact refuseStep_keepsCycle h

/-- The STEPs of the top-level handler are of lanes, or refused. -/
theorem stepFromTop_handlerStepsKeepCycle (tracing : Bool) :
    HandlerStepsKeepCycle .top tracing fun t _ n => stepFromTop tracing t n := by
  intro t tr n s s' _ h
  cases t with
  | self => exact refuseStep_keepsCycle h
  | lane i =>
    exact .sameButLatch (stepLane_reaches trivial trivial h) (stepLane_get h (.inl (by simp)))

/-- A STEP that the harness issues runs the loop on the record it names. -/
theorem exec_step_idle {s : State} {t : Target} {w : Who} (haccepts : s.Accepts t w) (hc : s.ctx = .idle)
    (tracing : Bool) (n : BitVec 64) :
    ∃ f, exec (.step t tracing n) s = stepUnit f w tracing n.toNat s ∧ HandlerStepsKeepCycle w tracing f := by
  obtain ⟨hpresented, hresolves, -, -⟩ := haccepts
  obtain ⟨rfl, rfl⟩ | ⟨j, rfl, rfl⟩ := resolve_idle hc hresolves
  · exact ⟨_, by simp only [exec, execStep, hc, stepFromHarness], stepFromTop_handlerStepsKeepCycle tracing⟩
  · have hj : j < s.cfg.maxLanes := by
      by_contra hge
      simp [State.resolve, hge] at hresolves
    refine ⟨stepFromLane, ?_, stepFromLane_handlerStepsKeepCycle _ _⟩
    simp [exec, execStep, hc, stepFromHarness, stepLane, hpresented, hj]

end Sys2Proof.Machine

namespace Sys2Proof.Proofs

open Sys2Proof Sys2Proof.Machine

/-- Settles O46: the loop keeps `cycle` up to its end, and each way it ends does what its exit code says. -/
theorem stepResponseTellsTheOutcome : Obligations.StepResponseTellsTheOutcome := by
  intro s s' t w tracing n haccepts hc h
  obtain ⟨f, hexec, hstep⟩ := exec_step_idle haccepts hc tracing n
  obtain ⟨e, r, hresponse, hle, htells⟩ := stepUnit_answers hstep haccepts.present haccepts.alive (hexec ▸ h)
  refine ⟨e, r, hresponse, hle, ?_, ?_, ?_, ?_, ?_⟩ <;> rintro rfl
  · obtain ⟨rfl, hcycle⟩ := htells
    exact ⟨rfl, by simpa using hcycle⟩
  all_goals exact htells

end Sys2Proof.Proofs
end

section
/-! PROOFS. The status registers: what no command moves (R113), and the results of SET_STATUS and SET_FSTATUS (R111,
R112, R114). -/

namespace Sys2Proof.Machine

/-! ### Identity -/

/-- No write to one record moves its `id` (R21). -/
theorem UnitStep.id_eq {c : Config} {p q : Proc} (h : UnitStep c p q) : q.id = p.id := by
  cases h with
  | writeCr r v q hw => cases r <;> cases hw <;> rfl
  | reset => rw [Proc.reset_eq_atReset]; split <;> rfl
  | _ => rfl

/-- A field that no write to one record moves, and that START and FATAL leave alone, is the same in every record
wherever a command leads. -/
theorem Reaches.get_field {α : Type} (g : Proc → α) (hunit : ∀ {c p q}, UnitStep c p q → g q = g p)
    (hstart : ∀ pc p, g (Proc.start pc p) = g p) (hlatch : ∀ p : Proc, g { p with fatal := true } = g p)
    {A : Who → Prop} {s s' : State} (h : Reaches A s s') (w : Who) : g (s'.get w) = g (s.get w) := by
  refine h.keeps (fun s1 => g (s1.get w) = g (s.get w)) rfl ?_ ?_ ?_ ?_
  · exact fun _ _ ha hs => by rw [ha.get, hs]
  · intro s1 v f _ _ hf hs
    obtain hsame | ⟨rfl, hwritten⟩ := s1.get_upd_cases v w f
    · rw [hsame, hs]
    · rw [hwritten, hunit hf, hs]
  · exact fun s1 i pc _ _ hs => (s1.get_upd_field g (.lane i) w _ (hstart pc)).trans hs
  · intro s1 v r _ _ hs
    obtain hsame | hset := s1.raiseFatal_get v r w
    · rw [hsame, hs]
    · rw [hset, hlatch, hs]

/-! ### SET_STATUS -/

/-- `SR_CAP` has no reserved bit, and UX, SX and EC by their capabilities (R31, R32). -/
theorem srCap_bits (c : Config) :
    srCap c &&& 0xFFFE0000 = 0 ∧ srUX (srCap c) = c.cap64 ∧ srSX (srCap c) = c.cap64 ∧
      srEC (srCap c) = c.capRvc := by
  simp only [srCap]
  cases c.cap64 <;> cases c.capFpu <;> cases c.capRvc <;> cases c.capVec <;> decide

/-- A canonical status claims an optional feature only where it was written and is configured in (R32, R112). -/
theorem srFlags_and_srCap (c : Config) (v : BitVec 32) :
    srUX (v &&& srCap c) = (srUX v && c.cap64) ∧ srSX (v &&& srCap c) = (srSX v && c.cap64) ∧
      srEF (v &&& srCap c) = (srEF v && c.capFpu) ∧ srEC (v &&& srCap c) = (srEC v && c.capRvc) ∧
      srEV (v &&& srCap c) = (srEV v && c.capVec) := by
  obtain ⟨-, hux, hsx, hec⟩ := srCap_bits c
  obtain ⟨-, hef, hev⟩ := srCap_enables c
  simp only [srUX, srSX, srEC, srEF, srEV] at hux hsx hec hef hev ⊢
  simp only [BitVec.getLsbD_and, hux, hsx, hec, hef, hev, and_self]

/-- The width is 64 exactly when the mode's own width bit is set (R24). -/
theorem xprlenOf_eq_w64_iff (sr : BitVec 32) :
    xprlenOf sr = .w64 ↔ (srS sr = true ∧ srSX sr = true) ∨ (srS sr = false ∧ srUX sr = true) := by
  unfold xprlenOf
  cases srS sr <;> simp

/-- setStatus writes its record, then makes the three MMU calls (R111). -/
theorem State.setStatus_eq_withProc {s : State} {w : Who} (h : (s.proc? w).isSome = true) (v : BitVec 32) :
    s.setStatus w v =
      (s.withProc w ((s.get w).setStatus s.cfg v)).emitAll (statusCalls w (v &&& srCap s.cfg)) := by
  rw [State.setStatus, State.upd_eq_withProc h]; rfl

theorem State.setStatus_get {s : State} {w : Who} (h : (s.proc? w).isSome = true) (v : BitVec 32) :
    (s.setStatus w v).get w = (s.get w).setStatus s.cfg v := by
  rw [State.setStatus, State.emitStatusCalls_get, State.get_upd_same h]

/-- An accepted SET_STATUS is setStatus of the record it names. -/
theorem exec_setStatus_accepts {s : State} {t : Target} {w : Who} (h : s.Accepts t w) (v : BitVec 32) :
    exec (.setStatus t v) s = .next (s.setStatus w v) := by
  simp only [exec, execSetStatus, onTarget_accepts h]

end Sys2Proof.Machine

namespace Sys2Proof.Proofs

open Sys2Proof Sys2Proof.Machine

/-- Settles O14: no write of a command is to the configuration, the context, the port, the lane array's size, or a
record's identity. -/
theorem configurationAndIdentityConstant : Obligations.ConfigurationAndIdentityConstant := by
  intro i s s' hexec
  have hreaches := exec_reaches hexec
  obtain ⟨hcfg, hctx, hcommands, hlength, -⟩ := hreaches.around_keeps
  refine ⟨hcfg, hctx, hcommands, hlength, fun w => ⟨?_, ?_⟩⟩
  · exact hreaches.get_field Proc.id UnitStep.id_eq (fun _ _ => rfl) (fun _ => rfl) w
  · exact hreaches.get_field Proc.laneIndex UnitStep.laneIndex_eq (fun _ _ => rfl) (fun _ => rfl) w

/-- Settles O25: SET_STATUS is setStatus of the record it names, which is one write and the MMU's three calls. -/
theorem setStatusResult : Obligations.SetStatusResult := by
  intro s t w v haccepts
  rw [exec_setStatus_accepts haccepts, State.setStatus_eq_withProc haccepts.present]
  rfl

/-- Settles O26: the stored value is masked by the capabilities, and the width is computed from what is stored. -/
theorem statusReadbackCanonical : Obligations.StatusReadbackCanonical := by
  intro s t w v haccepts
  refine ⟨_, exec_setStatus_accepts haccepts v, ?_⟩
  rw [State.setStatus_get haccepts.present]
  have hsr : ((s.get w).setStatus s.cfg v).sr = v &&& srCap s.cfg := rfl
  obtain ⟨hreserved, -⟩ := srCap_bits s.cfg
  obtain ⟨hux, hsx, hef, hec, hev⟩ := srFlags_and_srCap s.cfg v
  refine ⟨?_, fun hcap => ⟨?_, ?_⟩, fun hcap => ?_, fun hcap => ?_, fun hcap => ?_, xprlenOf_eq_w64_iff _⟩
  · rw [hsr, BitVec.and_assoc, hreserved]; exact BitVec.and_zero
  · rw [hsr, hux, hcap, Bool.and_false]
  · rw [hsr, hsx, hcap, Bool.and_false]
  · rw [hsr, hef, hcap, Bool.and_false]
  · rw [hsr, hec, hcap, Bool.and_false]
  · rw [hsr, hev, hcap, Bool.and_false]

/-- Settles O27: the opcode's row of the decoder, and one write to the record the command names. -/
theorem setFstatusResult : Obligations.SetFstatusResult := by
  constructor
  · intro c hop
    simp [decode, hop]
  · intro s t w v haccepts
    simp only [exec, execSetFstatus, onTarget_accepts haccepts, State.upd_eq_withProc haccepts.present]
    rfl

end Sys2Proof.Proofs
end

section
/-! PROOFS. Interrupts and traps: the interrupt check (R121), the status words of trap entry and trap return (R122, R212),
what trap entry writes, the commands DELIVER_IRQ and CLEAR_PENDING (R124, R126), and the first interrupt after reset
(R237). -/

namespace Sys2Proof.Machine

/-! ### The interrupt check -/

/-- `lowbit` is the first one bit (R13). -/
theorem lowbit_eq_some_iff {m : BitVec 8} {n : Nat} :
    lowbit m = some n ↔ n < 8 ∧ m.getLsbD n = true ∧ ∀ j, j < n → m.getLsbD j = false := by
  simp only [lowbit, List.find?_range_eq_some, List.mem_range, Bool.not_eq_true']
  tauto

theorem lowbit_eq_none_iff {m : BitVec 8} : lowbit m = none ↔ ∀ n, n < 8 → m.getLsbD n = false := by
  simp [lowbit]

/-- A line is both pending and enabled when its pending bit and bit `8 + n` of the status are set (R30, R121). -/
theorem getLsbD_pending_and_srIM (p : Proc) {n : Nat} (hn : n < 8) :
    (p.pending &&& srIM p.sr).getLsbD n = (p.pending.getLsbD n && p.sr.getLsbD (8 + n)) := by
  simp [srIM, hn]

theorem getLsbD_pending_and_srIM_eq_false_iff (p : Proc) {n : Nat} (hn : n < 8) :
    (p.pending &&& srIM p.sr).getLsbD n = false ↔ p.pending.getLsbD n = false ∨ p.sr.getLsbD (8 + n) = false := by
  rw [getLsbD_pending_and_srIM p hn, Bool.and_eq_false_iff]

/-- Different lines have different causes (R201). -/
theorem irqCause_inj {m n : Nat} (hm : m < 8) (hn : n < 8)
    (h : BitVec.ofNat 5 (irqCauseBase + m) = BitVec.ofNat 5 (irqCauseBase + n)) : m = n := by
  have hnat := congrArg BitVec.toNat h
  simp only [BitVec.toNat_ofNat, irqCauseBase] at hnat
  omega

/-- The check signals line `n` exactly when ET is set and `n` is the lowest line pending and enabled. -/
theorem takeInterruptIfAny_eq_some_iff {p : Proc} {n : Nat} (hn : n < 8) :
    takeInterruptIfAny p = some (BitVec.ofNat 5 (irqCauseBase + n)) ↔
      srET p.sr = true ∧ lowbit (p.pending &&& srIM p.sr) = some n := by
  unfold takeInterruptIfAny
  cases srET p.sr with
  | false => simp
  | true =>
    simp only [if_true, true_and, Option.map_eq_some_iff]
    constructor
    · rintro ⟨m, hm, hcause⟩
      rwa [← irqCause_inj (lowbit_eq_some_iff.mp hm).1 hn hcause]
    · exact fun h => ⟨n, h, rfl⟩

theorem takeInterruptIfAny_eq_none_iff {p : Proc} :
    takeInterruptIfAny p = none ↔ srET p.sr = false ∨ lowbit (p.pending &&& srIM p.sr) = none := by
  unfold takeInterruptIfAny
  cases srET p.sr <;> simp

/-! ### The status words of traps -/

/-- Clearing one bit keeps the others. -/
theorem getLsbD_and_not_twoPow {n : Nat} (x : BitVec n) (i k : Nat) :
    (x &&& ~~~BitVec.twoPow n i).getLsbD k = if k = i then false else x.getLsbD k := by
  by_cases hk : k < n
  · by_cases hi : k = i <;> simp [hk, hi]
  · simp [BitVec.getLsbD_of_ge _ _ (Nat.le_of_not_lt hk)]

/-- Setting one bit keeps the others. -/
theorem getLsbD_or_twoPow {n : Nat} (x : BitVec n) {i : Nat} (hi : i < n) (k : Nat) :
    (x ||| BitVec.twoPow n i).getLsbD k = if k = i then true else x.getLsbD k := by
  by_cases hk : k = i
  · simp [hk, hi]
  · simp [hk, Ne.symm hk]

/-- Setting one bit on a condition keeps the others. -/
theorem getLsbD_or_ofBool_shiftLeft {n : Nat} (x : BitVec n) (b : Bool) {i : Nat} (hi : i < n) (k : Nat) :
    (x ||| (BitVec.ofBool b).setWidth n <<< i).getLsbD k = if k = i then x.getLsbD k || b else x.getLsbD k := by
  cases b with
  | false => simp
  | true =>
    have hone : (BitVec.ofBool true).setWidth n = 1#n := BitVec.setWidth_ofNat_one_eq_ofNat_one_of_lt Nat.one_pos
    rw [hone, ← BitVec.twoPow_eq, getLsbD_or_twoPow x hi, Bool.or_true]

/-- Every bit of the status a trap entry writes (R122). -/
theorem trapEntryStatus_getLsbD (sr : BitVec 32) (k : Nat) :
    (trapEntryStatus sr).getLsbD k =
      if k = 0 then false else if k = 4 then srS sr else if k = 5 then true else sr.getLsbD k := by
  have hmasks : trapEntryStatus sr =
      ((sr &&& ~~~BitVec.twoPow 32 0 ||| BitVec.twoPow 32 5) &&& ~~~BitVec.twoPow 32 4) |||
        (BitVec.ofBool (srS sr)).setWidth 32 <<< 4 := rfl
  rw [hmasks, getLsbD_or_ofBool_shiftLeft _ _ (by decide), getLsbD_and_not_twoPow, getLsbD_or_twoPow _ (by decide),
    getLsbD_and_not_twoPow]
  by_cases h4 : k = 4
  · simp [h4]
  by_cases h5 : k = 5
  · simp [h5]
  · simp [h4, h5]

/-- Every bit of the status a trap return writes (R212). -/
theorem trapReturnStatus_getLsbD (sr : BitVec 32) (k : Nat) :
    (trapReturnStatus sr).getLsbD k =
      if k = 0 then true else if k = 5 then srPS sr else sr.getLsbD k := by
  have hmasks : trapReturnStatus sr =
      (sr &&& ~~~BitVec.twoPow 32 5 ||| (BitVec.ofBool (srPS sr)).setWidth 32 <<< 5) ||| BitVec.twoPow 32 0 := rfl
  rw [hmasks, getLsbD_or_twoPow _ (by decide), getLsbD_or_ofBool_shiftLeft _ _ (by decide), getLsbD_and_not_twoPow]
  by_cases h5 : k = 5 <;> simp [h5]

/-! ### Trap entry -/

/-- Emitting and writing one record are independent. -/
theorem State.emitAll_withProc (s : State) (es : List Event) (w : Who) (p : Proc) :
    (s.emitAll es).withProc w p = (s.withProc w p).emitAll es := by
  cases w <;> rfl

@[simp] theorem State.emitAll_get (s : State) (es : List Event) (w : Who) : (s.emitAll es).get w = s.get w :=
  State.get_congr rfl rfl w

/-- A scripted bad address is the script's next (R75). -/
theorem State.badAddress_of_script {s : State} {b : Word} {bs : List Word} (h : s.badAddrs = b :: bs)
    (es : List Event) (w : Who) :
    (s.emitAll es).badAddress w =
      (b, ({ s with badAddrs := bs } : State).emitAll (es ++ [.getLastBadVirtualAddress w])) := by
  simp [State.badAddress, State.emitAll, State.emit, h]

/-- What trap entry emits before it asks for the bad address, in order: the trace event if tracing, then the calls of the
status write (R122, R210). -/
def State.trapEvents (s : State) (w : Who) (tracing : Bool) (c : Cause) : List Event :=
  (if tracing then [.traceTrap (s.get w).id c (s.get w).pc] else []) ++
    statusCalls w (trapEntryStatus (s.get w).sr &&& srCap s.cfg)

/-- Trap entry of a recognised cause: its events, the MMU's answer, and one write to the record (R122). -/
theorem State.enterTrap_recognised (s : State) (w : Who) (tracing : Bool) {c : Cause} (hc : c.toNat < firstBadCause) :
    s.enterTrap w tracing c =
      ((s.emitAll (s.trapEvents w tracing c)).badAddress w).2.upd w
        (Proc.enterTrap s.cfg c ((s.emitAll (s.trapEvents w tracing c)).badAddress w).1) := by
  cases tracing <;> exact if_neg (Nat.not_le.mpr hc)

/-- Trap entry of a recognised cause leaves in the record what `Proc.enterTrap` writes, for what the MMU answers. -/
theorem State.enterTrap_get {s : State} {w : Who} (h : (s.proc? w).isSome = true) (tracing : Bool) {c : Cause}
    (hc : c.toNat < firstBadCause) : ∃ b, (s.enterTrap w tracing c).get w = (s.get w).enterTrap s.cfg c b := by
  have haround : Around s ((s.emitAll (s.trapEvents w tracing c)).badAddress w).2 :=
    Around.trans (s' := s.emitAll (s.trapEvents w tracing c)) ⟨rfl, rfl, rfl, rfl, rfl, List.suffix_refl _⟩
      (Around.badAddress _ w)
  rw [State.enterTrap_recognised s w tracing hc, State.get_upd_same (by rw [haround.proc?]; exact h), haround.get]
  exact ⟨_, rfl⟩

/-- A trap of a recognised cause retires its iteration (R136). -/
theorem trapIteration_recognised {s : State} {w : Who} (h : (s.proc? w).isSome = true) (alive : (s.get w).fatal = false)
    (tracing : Bool) {c : Cause} (hc : c.toNat < firstBadCause) :
    trapIteration w tracing c s = .retired (s.enterTrap w tracing c) := by
  obtain ⟨b, hget⟩ := State.enterTrap_get h tracing hc
  have hfatal : ((s.enterTrap w tracing c).get w).fatal = false := by rw [hget]; exact alive
  simp [trapIteration, hfatal]

/-- An iteration takes the interrupt that its record has once the deliveries have landed (R121, R136). -/
theorem iterate_interrupt {f : Target → Bool → BitVec 64 → State → Result} {w : Who} {tracing : Bool} {s s1 : State}
    (hland : landDeliveries w s = s1) (h : (s1.proc? w).isSome = true) (alive : (s1.get w).fatal = false) {c : Cause}
    (hc : takeInterruptIfAny (s1.get w) = some c) :
    iterate f w tracing s = .retired (s1.enterTrap w tracing c) := by
  rw [← trapIteration_recognised h alive tracing (takeInterruptIfAny_lt hc)]
  simp [iterate, hland, alive, hc]

/-- The end of a STEP closes the batch in the record that was stepped (R146). -/
theorem State.closeStep_get {s : State} {w : Who} (h : (s.proc? w).isSome = true) (e : StepExit) (retired : Nat) :
    (s.closeStep w e retired).get w = (s.get w).closeBatch retired := by
  rw [State.closeStep, State.respond_get, State.get_upd_same h]

/-- A count that has `compare` behind it sets no timer bit (R176). -/
theorem Proc.closeBatch_pending_of_le {p : Proc} (h : p.compare.toNat ≤ p.count.toNat) (retired : Nat) :
    (p.closeBatch retired).pending = p.pending :=
  if_neg fun hcross => Nat.not_lt.mpr h hcross.1

/-- A STEP of one instruction that the harness issues to a running record takes a pending interrupt and retires it,
when nothing lands at its boundary (R121, R136, R146). -/
theorem exec_step_one_interrupt {s : State} {t : Target} {w : Who} (haccepts : s.Accepts t w) (hidle : s.ctx = .idle)
    (hland : landDeliveries w s = s) (hrun : (s.get w).run = true) (tracing : Bool) {c : Cause}
    (hc : takeInterruptIfAny (s.get w) = some c) :
    exec (.step t tracing 1) s = .next ((s.enterTrap w tracing c).closeStep w .budget 1) := by
  obtain ⟨f, hexec, -⟩ := exec_step_idle haccepts hidle tracing 1
  have hone : (1 : BitVec 64).toNat = 0 + 1 := rfl
  rw [hexec, hone, stepUnit_succ hrun haccepts.alive, iterate_interrupt hland haccepts.present haccepts.alive hc]
  rfl

/-! ### DELIVER_IRQ and CLEAR_PENDING -/

theorem exec_deliverIrq_accepts {s : State} {t : Target} {w : Who} (h : s.Accepts t w) (k : BitVec 3) :
    exec (.deliverIrq t k) s = .next (s.upd w (Proc.deliver k)) := by
  simp only [exec, execDeliverIrq, deliverTo, onTarget_accepts h]

theorem exec_clearPending_accepts {s : State} {t : Target} {w : Who} (h : s.Accepts t w) (m : BitVec 8) :
    exec (.clearPending t m) s = .next (s.upd w (Proc.clearPending m)) := by
  simp only [exec, execClearPending, onTarget_accepts h]

/-! ### The first interrupt after reset -/

/-- The machine after reset, once interrupt `k` has been delivered to the processor (R124, R237). -/
def State.resetDelivered (k : BitVec 3) : State := State.reset.upd .top (Proc.deliver k)

theorem reset_accepts : State.reset.Accepts .self .top :=
  have alive := (State.construct_noFatal Config.standard).1
  ⟨alive, rfl, rfl, alive⟩

theorem resetDelivered_accepts (k : BitVec 3) : (State.resetDelivered k).Accepts .self .top :=
  have alive := (State.construct_noFatal Config.standard).1
  ⟨alive, rfl, rfl, alive⟩

/-- The reset status enables traps and every line, so any line delivered is taken (R60, R237). -/
theorem takeInterruptIfAny_resetDelivered :
    ∀ k, takeInterruptIfAny ((State.resetDelivered k).get .top) = some (BitVec.ofNat 5 (16 + k.toNat)) := by
  decide

end Sys2Proof.Machine

namespace Sys2Proof.Proofs

open Sys2Proof Sys2Proof.Machine

/-- Settles O30: the check looks for the lowest one bit of `pending` masked by the enabled lines. -/
theorem interruptCheckPicksLowestLine : Obligations.InterruptCheckPicksLowestLine := by
  intro p
  constructor
  · intro n hn
    have hlower : (∀ m, m < n → (p.pending &&& srIM p.sr).getLsbD m = false) ↔
        ∀ m, m < n → p.pending.getLsbD m = false ∨ p.sr.getLsbD (8 + m) = false :=
      forall₂_congr fun m hm => getLsbD_pending_and_srIM_eq_false_iff p (hm.trans hn)
    refine (takeInterruptIfAny_eq_some_iff hn).trans ?_
    rw [lowbit_eq_some_iff, getLsbD_pending_and_srIM p hn, Bool.and_eq_true, hlower, srET]
    tauto
  · rw [takeInterruptIfAny_eq_none_iff, lowbit_eq_none_iff, srET]
    exact or_congr_right (forall₂_congr fun n hn => getLsbD_pending_and_srIM_eq_false_iff p hn)

/-- Settles O31: read off the bits of the two status words; a return after an entry gives bit 5 back from bit 4. -/
theorem trapStatusBits : Obligations.TrapStatusBits := by
  intro sr
  simp only [srET, srS, srPS, trapEntryStatus_getLsbD, trapReturnStatus_getLsbD]
  refine ⟨rfl, rfl, rfl, ?_, rfl, rfl, ?_, fun het => ⟨rfl, rfl, ?_⟩⟩
  · intro k h0 h4 h5
    simp [h0, h4, h5]
  · intro k h0 h5
    simp [h0, h5]
  · intro k h4
    by_cases h0 : k = 0
    · simp [h0, het]
    by_cases h5 : k = 5
    · simp [h5]
    simp [h0, h4, h5]

/-- Settles O32: with a scripted bad address, trap entry's one write is the one stated. -/
theorem trapEntryResult : Obligations.TrapEntryResult := by
  intro s w tracing c b bs hpresent hc hscript
  have hget : ({ s with badAddrs := bs } : State).get w = s.get w := State.get_congr rfl rfl w
  rw [State.enterTrap_recognised s w tracing hc, State.badAddress_of_script hscript,
    State.upd_eq_withProc (by cases w <;> exact hpresent), State.emitAll_withProc, State.emitAll_get, hget]
  rfl

/-- Settles O28: an accepted DELIVER_IRQ is one write to the record it names. -/
theorem deliverIrqResult : Obligations.DeliverIrqResult := by
  intro s t w k haccepts
  rw [exec_deliverIrq_accepts haccepts, State.upd_eq_withProc haccepts.present]
  rfl

/-- Settles O29: the opcode's row of the decoder, and one write to the record the command names. -/
theorem clearPendingResult : Obligations.ClearPendingResult := by
  constructor
  · intro c hop
    simp [decode, hop]
  · intro s t w m haccepts
    rw [exec_clearPending_accepts haccepts, State.upd_eq_withProc haccepts.present]
    rfl

/-- Settles O34: the STEP's only iteration takes the interrupt, and the timer stays quiet because `count` and `compare`
start equal. -/
theorem bootInterruptTaken : Obligations.BootInterruptTaken := by
  intro k
  have haccepts := resetDelivered_accepts k
  have hcheck := takeInterruptIfAny_resetDelivered k
  have hstep := exec_step_one_interrupt haccepts rfl (landDeliveries_none rfl rfl) rfl false hcheck
  obtain ⟨b, htrapped⟩ := State.enterTrap_get haccepts.present false (takeInterruptIfAny_lt hcheck)
  refine ⟨_, _, exec_deliverIrq_accepts reset_accepts k, hstep, ?_⟩
  rw [← State.get_top, State.closeStep_get rfl, htrapped]
  refine ⟨rfl, rfl, rfl, rfl, ?_⟩
  rw [Proc.closeBatch_pending_of_le (Nat.le_refl _)]
  exact BitVec.zero_or

end Sys2Proof.Proofs
end

section
/-! PROOFS. STEP up to its loop: what the commands of a handler mean (R95, R149), which loop a STEP runs, the STEPs that
run none of its body (R144, R145), and the timer (R146, R176). -/

namespace Sys2Proof.Machine

/-! ### The commands of a handler -/

/-- What STEP means to the handler of the record `w`, which is inside a STEP with this tracing flag (R95, R155). -/
def handlerStep : Who → Bool → Target → Bool → BitVec 64 → State → Result
  | .top, tracing => fun t _ n => stepFromTop tracing t n
  | .lane _, _ => stepFromLane

/-- The interpreter the loop of `w` uses means what `exec` means in the context of `w`'s handler. -/
theorem runInstr_handlerStep {w : Who} {tracing : Bool} (i : Instr) {s : State} (hc : s.ctx = .exec w tracing) :
    runInstr (handlerStep w tracing) i s = exec i s := by
  cases i with
  | step t tr n => cases w <;> simp only [runInstr, handlerStep, exec, execStep, hc]
  | _ => rfl

/-! ### The loop a STEP runs -/

/-- A target that names a lane names it to the top-level processor, by an index in the array (R92). -/
theorem State.resolve_lane_eq_some {s : State} {j : Nat} {w : Who} (h : s.resolve (.lane j) = some w) :
    s.presented = .top ∧ j < s.cfg.maxLanes ∧ w = .lane j := by
  simp only [State.resolve] at h
  split at h
  · next hj => exact ⟨hj.1, hj.2, (Option.some.inj h).symm⟩
  · cases h

/-- A STEP that the harness issues, or an owner's handler for a lane, is the loop of the record it names; from the harness
with the tracing flag of the command. -/
theorem exec_step_eq_stepUnit {s : State} {t : Target} {w : Who} (h : s.Accepts t w) (hc : s.ctx = .idle ∨ t ≠ .self)
    (tracing : Bool) (n : BitVec 64) :
    ∃ tracing', (s.ctx = .idle → tracing' = tracing) ∧
      exec (.step t tracing n) s = stepUnit (handlerStep w tracing') w tracing' n.toNat s := by
  cases t with
  | self =>
    have hidle : s.ctx = .idle := by simpa using hc
    obtain ⟨-, rfl⟩ | ⟨j, hj, -⟩ := resolve_idle hidle h.resolves
    · exact ⟨tracing, fun _ => rfl, by simp only [exec, execStep, hidle, stepFromHarness, handlerStep]⟩
    · cases hj
  | lane j =>
    obtain ⟨htop, hj, rfl⟩ := State.resolve_lane_eq_some h.resolves
    have hlane : ∀ tr, stepLane j tr n s = stepUnit (handlerStep (.lane j) tr) (.lane j) tr n.toNat s := fun tr => by
      simp [stepLane, h.presented_alive, hj, handlerStep]
    cases hx : s.ctx with
    | idle => exact ⟨tracing, fun _ => rfl, by rw [← hlane]; simp only [exec, execStep, hx, stepFromHarness]⟩
    | exec who owner =>
      obtain rfl : who = .top := by simpa [State.presented, hx] using htop
      exact ⟨owner, nofun, by rw [← hlane]; simp only [exec, execStep, hx, stepFromTop]⟩

theorem stepUnit_parked {f : Target → Bool → BitVec 64 → State → Result} {w : Who} {tracing : Bool} {n : Nat} {s : State}
    (alive : (s.get w).fatal = false) (hrun : (s.get w).run = false) :
    stepUnit f w tracing n s = .next (s.respond .parked 0) := by
  simp [stepUnit, alive, hrun]

/-- Closing a batch that retired nothing leaves the whole machine as it was. -/
theorem State.upd_closeBatch_zero (s : State) (w : Who) : s.upd w (Proc.closeBatch 0) = s := by
  have hid : Proc.closeBatch 0 = id := funext Proc.closeBatch_zero
  cases w <;> simp [State.upd, hid, List.modify_id]

/-- With no budget a running record's loop only closes an empty batch (R144). -/
theorem stepUnit_zero {f : Target → Bool → BitVec 64 → State → Result} {w : Who} {tracing : Bool} {s : State}
    (alive : (s.get w).fatal = false) (hrun : (s.get w).run = true) :
    stepUnit f w tracing 0 s = .next (s.respond .budget 0) := by
  simp [stepUnit, alive, hrun, loop, State.closeStep, State.upd_closeBatch_zero]

end Sys2Proof.Machine

namespace Sys2Proof.Proofs

open Sys2Proof Sys2Proof.Machine

/-- Settles O9: the loop of the top-level processor and the loop of a lane each run the commands of the handler they
call by the interpreter that is `exec` in that handler's context. -/
theorem handlerCommandsMeanExec : Obligations.HandlerCommandsMeanExec :=
  ⟨fun i _ _ hc => runInstr_handlerStep i hc, fun i _ _ _ hc => runInstr_handlerStep i hc⟩

/-- Settles O35: the loop is not entered for a parked record, and with no budget its body is not. -/
theorem stepThatDoesNothing : Obligations.StepThatDoesNothing := by
  intro s t w tracing n haccepts hc
  constructor
  · intro hrun
    obtain ⟨tr, -, hexec⟩ := exec_step_eq_stepUnit haccepts hc tracing n
    exact hexec.trans (stepUnit_parked haccepts.alive hrun)
  · intro hrun
    obtain ⟨tr, -, hexec⟩ := exec_step_eq_stepUnit haccepts hc tracing 0
    exact hexec.trans (stepUnit_zero haccepts.alive hrun)

/-- Settles O48: the 32-bit `count` is the unwrapped sum reduced, and the timer's bit is bit 7. -/
theorem timerUpdateResult : Obligations.TimerUpdateResult := by
  intro p retired
  have hcount : BitVec.ofNat 32 ((p.count.toNat + retired) % 2 ^ 32) = BitVec.ofNat 32 (p.count.toNat + retired) :=
    BitVec.eq_of_toNat_eq (by simp)
  rw [hcount]
  exact ⟨rfl, rfl⟩

end Sys2Proof.Proofs
end

section
/-! PROOFS. A STEP of any length completes unless a scripted handler never returns (R144, R153): the loop is bounded by its
budget, the handlers' script is only used up, and a handler that returns leaves the loop running. -/

namespace Sys2Proof.Machine

/-- No command adds to the handlers' script, so none adds a handler that hangs. -/
theorem State.NoScriptedHang.of_reaches {A : Who → Prop} {s s' : State} (h : s.NoScriptedHang) (hr : Reaches A s s') :
    s'.NoScriptedHang := by
  obtain ⟨-, -, -, -, hsuffix⟩ := hr.around_keeps
  exact fun e he => h e (hsuffix.subset he)

theorem State.NoScriptedHang.around {s s' : State} (h : s.NoScriptedHang) (ha : Around s s') : s'.NoScriptedHang :=
  fun e he => h e (ha.executions.subset he)

/-- The machine goes on to a state in which, again, no handler of the script hangs. -/
def Completes (r : Result) : Prop := ∃ s', r = .next s' ∧ s'.NoScriptedHang

/-- The iteration does not stop the machine, and no handler of the script hangs after it. -/
def Iteration.Completes : Iteration → Prop
  | .retired s => s.NoScriptedHang
  | .laneComplete s => s.NoScriptedHang
  | .halted s => s.NoScriptedHang
  | .fatal s => s.NoScriptedHang
  | .stopped _ => False
  | .refused _ => False

/-- A meaning of STEP that completes wherever no handler of the script hangs. -/
abbrev StepCompletes (f : Target → Bool → BitVec 64 → State → Result) : Prop :=
  ∀ t tr n (s : State), s.NoScriptedHang → Completes (f t tr n s)

/-- A command other than STEP answers a next state, whatever the state it is issued in. -/
theorem exec_answers {i : Instr} (hi : ∀ t tr n, i ≠ .step t tr n) (s : State) : ∃ s', exec i s = .next s' := by
  cases i with
  | step t tr n => exact absurd rfl (hi t tr n)
  | _ => exact ⟨_, rfl⟩

theorem landDeliveries_reaches_any (w : Who) (s : State) : Reaches (fun _ => True) s (landDeliveries w s) :=
  landDeliveries_reaches trivial fun _ => ⟨trivial, fun _ _ _ _ _ => trivial⟩

/-- A handler outside the script returns, and one inside it does when it is not said to hang (log entry 5). -/
theorem State.NoScriptedHang.execution_returns {s : State} (h : s.NoScriptedHang) :
    ∃ o, s.execution.1.outcome = some o := by
  unfold State.execution
  split
  · next e rest he => exact Option.isSome_iff_exists.mp (h e (by simp [he]))
  · exact ⟨_, rfl⟩

section Loop

variable {f : Target → Bool → BitVec 64 → State → Result} {w : Who} {tracing : Bool} {s : State}

theorem runWord_completes (hf : StepCompletes f) (h : s.NoScriptedHang) (c : CommandWord) :
    Completes (runWord f c s) := by
  have hother : ∀ i, (∀ t tr n, i ≠ .step t tr n) → Completes (runInstr f i s) := fun i hi => by
    obtain ⟨s', hexec⟩ := exec_answers hi s
    exact ⟨s', (runInstr_eq_exec hi).trans hexec, h.of_reaches (exec_reaches hexec)⟩
  unfold runWord
  split
  · next i _ =>
    cases i with
    | step t tr n => exact hf t tr n s h
    | _ => exact hother _ (by simp)
  · exact ⟨_, rfl, h.of_reaches (.rejectOpcode (A := fun _ => True) trivial)⟩

theorem runCommands_completes (hf : StepCompletes f) (ws : List CommandWord) :
    ∀ s : State, s.NoScriptedHang → Completes (runCommands f ws s) := by
  induction ws with
  | nil => exact fun s h => ⟨s, rfl, h⟩
  | cons c ws ih =>
    intro s h
    obtain ⟨s1, hword, h1⟩ := runWord_completes hf h c
    rw [runCommands, hword]
    exact ih s1 h1

theorem trapIteration_completes (h : s.NoScriptedHang) (alive : (s.get w).fatal = false) (c : Cause) :
    (trapIteration w tracing c s).Completes := by
  have htrapped := h.of_reaches (.enterTrap (A := fun _ => True) w tracing c trivial alive)
  unfold trapIteration
  simp only
  split <;> exact htrapped

theorem finishIteration_completes (h : s.NoScriptedHang) (alive : (s.get w).fatal = false) (o : HandlerOutcome) :
    (finishIteration w tracing o s).Completes := by
  cases o with
  | continueAt npc => exact h.of_reaches (.one (A := fun _ => True) w _ trivial alive (.writePc npc))
  | trap c => exact trapIteration_completes h alive c
  | laneComplete =>
    simp only [finishIteration]
    split
    · exact h.of_reaches (.latch (A := fun _ => True) .refl w _ trivial alive)
    · exact h
  | halt => exact h.of_reaches (.resetUnit (A := fun _ => True) w trivial fun _ _ => trivial)

theorem executePhase_completes (hf : StepCompletes f) (h : s.NoScriptedHang) (insn : InsnWord) (token : HandlerToken) :
    (executePhase f w tracing insn token s).Completes := by
  have hcalled : (s.emit (.callHandler w token insn (s.get w).pc)).NoScriptedHang := h
  obtain ⟨o, hreturns⟩ := hcalled.execution_returns
  have hscript := hcalled.around (.execution _)
  unfold executePhase
  simp only
  generalize (s.emit (.callHandler w token insn (s.get w).pc)).execution = r at hreturns hscript
  obtain ⟨s1, hrun, h1⟩ := runCommands_completes hf r.1.commands { r.2 with ctx := .exec w tracing } hscript
  have hback : ({ s1 with ctx := s.ctx } : State).NoScriptedHang := h1
  simp only [hrun, hreturns]
  split
  · exact hback
  · next alive => exact finishIteration_completes hback (by simpa using alive) _

theorem iterate_completes (hf : StepCompletes f) (h : s.NoScriptedHang) : (iterate f w tracing s).Completes := by
  have hland : (landDeliveries w s).NoScriptedHang := h.of_reaches (landDeliveries_reaches_any w s)
  unfold iterate
  generalize landDeliveries w s = s1 at hland
  simp only
  split
  · exact hland
  · next hlive =>
    have alive : (s1.get w).fatal = false := by simpa using hlive
    have hfetch := hland.around (.fetch s1 w)
    split
    · exact trapIteration_completes hland alive _
    · split
      · exact trapIteration_completes hfetch (by rw [(Around.fetch s1 w).get]; exact alive) _
      · refine executePhase_completes hf ?_ _ _
        split
        · exact hfetch.around (.emit _ _)
        · exact hfetch

theorem closeStep_noScriptedHang (h : s.NoScriptedHang) (e : StepExit) (r : Nat) :
    (s.closeStep w e r).NoScriptedHang := by
  have hscript : (s.closeStep w e r).executions = s.executions := by simp [State.closeStep]
  exact fun x hx => h x (hscript ▸ hx)

theorem loop_completes (hf : StepCompletes f) (k : Nat) :
    ∀ (r : Nat) (s : State), s.NoScriptedHang → Completes (loop f w tracing k r s) := by
  induction k with
  | zero => exact fun r s h => ⟨_, rfl, closeStep_noScriptedHang h .budget r⟩
  | succ k ih =>
    intro r s h
    have hiter := iterate_completes (w := w) (tracing := tracing) hf h
    simp only [loop]
    generalize iterate f w tracing s = result at hiter
    cases result with
    | retired s1 => exact ih (r + 1) s1 hiter
    | laneComplete s1 => exact ⟨_, rfl, closeStep_noScriptedHang hiter .laneComplete r⟩
    | halted s1 => exact ⟨_, rfl, hiter.around (.respond _ _ _)⟩
    | fatal s1 => exact ⟨_, rfl, hiter.around (.respond _ _ _)⟩
    | stopped e => exact hiter.elim
    | refused e => exact hiter.elim

theorem stepUnit_completes (hf : StepCompletes f) (n : Nat) (h : s.NoScriptedHang) :
    Completes (stepUnit f w tracing n s) := by
  unfold stepUnit
  split
  · exact ⟨_, rfl, h.around (.respond _ _ _)⟩
  · split
    · exact loop_completes hf n 0 s h
    · exact ⟨_, rfl, h.around (.respond _ _ _)⟩

end Loop

theorem refuseStep_completes {s : State} (h : s.NoScriptedHang) (r : FatalReason) : Completes (refuseStep r s) := by
  have hanswers : ∃ s', refuseStep r s = .next s' := by
    unfold refuseStep
    split <;> exact ⟨_, rfl⟩
  obtain ⟨s', hrefused⟩ := hanswers
  exact ⟨s', hrefused, h.of_reaches (refuseStep_reaches (A := fun _ => True) trivial hrefused)⟩

theorem stepFromLane_completes : StepCompletes stepFromLane := by
  intro t _ _ s h
  cases t with
  | self => exact refuseStep_completes h .reentrant
  | lane j => exact refuseStep_completes h .badTarget

theorem stepLane_completes (i : Nat) (tracing : Bool) (n : BitVec 64) {s : State} (h : s.NoScriptedHang) :
    Completes (stepLane i tracing n s) := by
  unfold stepLane
  split
  · exact ⟨_, rfl, h.around (.respond _ _ _)⟩
  · split
    · exact stepUnit_completes stepFromLane_completes _ h
    · exact refuseStep_completes h .badTarget

theorem stepFromTop_completes (tracing : Bool) : StepCompletes fun t _ n => stepFromTop tracing t n := by
  intro t _ n s h
  cases t with
  | self => exact refuseStep_completes h .reentrant
  | lane i => exact stepLane_completes i tracing n h

theorem execStep_completes : StepCompletes execStep := by
  intro t tracing n s h
  unfold execStep
  split
  · cases t with
    | self => exact stepUnit_completes (stepFromTop_completes tracing) _ h
    | lane i => exact stepLane_completes i tracing n h
  · next owner _ => exact stepFromTop_completes owner t tracing n s h
  · exact stepFromLane_completes t tracing n s h

end Sys2Proof.Machine

namespace Sys2Proof.Proofs

open Sys2Proof Sys2Proof.Machine

/-- Settles O36, by induction on the budget: every iteration's handler returns, and so do the lane STEPs it issues. -/
theorem stepCompletesUnlessHandlerHangs : Obligations.StepCompletesUnlessHandlerHangs := by
  intro s t tracing n h
  obtain ⟨s', hexec, -⟩ := execStep_completes t tracing n s h
  exact ⟨s', hexec⟩

end Sys2Proof.Proofs
end

section
/-! PROOFS. The first iteration of a STEP that the harness issues: what its handler's commands leave (R149), how each
outcome ends it (R139 to R143), and the trap entries that retire it (R137, R138, R140). -/

namespace Sys2Proof.Machine

/-! ### What a handler's commands leave -/

@[simp] theorem State.get_setCtx (s : State) (c : Context) (w : Who) : ({ s with ctx := c } : State).get w = s.get w :=
  State.get_congr rfl rfl w

theorem Proc.SameButLatch.pc {p q : Proc} (h : p.SameButLatch q) : q.pc = p.pc := by obtain ⟨b, rfl⟩ := h; rfl

/-- No selector that WRITE_CR accepts is `pc` (R182). -/
theorem writeSelector_pc {r : Selector} {v : Word} {p q : Proc} (h : writeSelector r v p = some q) : q.pc = p.pc := by
  cases r <;> cases h <;> rfl

/-- Of the commands other than STEP only RESET and a lane's START write `pc` (R25). -/
theorem Proc.after_pc (c : Config) (p : Proc) {i : Instr} (hreset : ∀ t, i ≠ .reset t)
    (hstart : ∀ j pc, i ≠ .start (.lane j) pc) : (p.after c i).pc = p.pc := by
  cases i with
  | reset t => exact absurd rfl (hreset t)
  | writeCr t sel v =>
    obtain hsame | ⟨r, -, hw⟩ := p.after_writeCr c t sel v
    · rw [hsame]
    · exact writeSelector_pc hw
  | start t pc =>
    cases t with
    | self => rfl
    | lane j => exact absurd rfl (hstart j pc)
  | _ => rfl

/-- A command whose target names a lane does not act on the record it is presented to (R92). -/
theorem not_actsOn_presented {i : Instr} {s : State} {j : Nat} (ht : i.target = .lane j) : ¬ActsOn i s s.presented := by
  rintro (h | ⟨t, rfl, h⟩)
  · rw [ht] at h
    obtain ⟨htop, -, hlane⟩ := State.resolve_lane_eq_some h
    cases htop.symm.trans hlane
  · obtain rfl : t = .lane j := ht
    obtain ⟨-, -, hlane⟩ := State.resolve_lane_eq_some h
    cases hlane

/-- A refused STEP changes no record but for latches (R92, R95). -/
theorem refuseStep_get {r : FatalReason} {s s' : State} (h : refuseStep r s = .next s') (v : Who) :
    (s.get v).SameButLatch (s'.get v) := by
  unfold refuseStep at h
  split at h
  · cases h; exact .of_eq (State.respond_get ..)
  · cases h; rw [State.respond_get]; exact .raiseFatal ..

/-- A STEP that the handler of `w` issues changes at most the latch of `w`: it is refused, or a lane's. -/
theorem handlerStep_get {w : Who} {tracing : Bool} {t : Target} {tr : Bool} {n : BitVec 64} {s s' : State}
    (h : handlerStep w tracing t tr n s = .next s') : (s.get w).SameButLatch (s'.get w) := by
  cases w with
  | top =>
    cases t with
    | self => exact refuseStep_get h _
    | lane i => exact stepLane_get h (.inl (by simp))
  | lane k => cases t <;> exact refuseStep_get h _

/-- No command that a handler issues moves the `pc` of the handler's own record: only the handler's outcome does. -/
theorem exec_handler_pc {w : Who} {tracing : Bool} {i : Instr} {s s' : State} (hc : s.ctx = .exec w tracing)
    (h : exec i s = .next s') : (s'.get w).pc = (s.get w).pc := by
  have hpresented : s.presented = w := by simp [State.presented, hc]
  have hlane : ∀ {j}, i.target = .lane j → ¬ActsOn i s w := fun ht => hpresented ▸ not_actsOn_presented ht
  cases i with
  | step t tr n =>
    rw [← runInstr_handlerStep _ hc] at h
    exact (handlerStep_get h).pc
  | reset t =>
    obtain hsame | ⟨hacts, -⟩ := exec_leftBy (by simp) h w
    · exact hsame.pc
    · cases t with
      | lane j => exact absurd hacts (hlane rfl)
      | self =>
        cases alive : (s.get w).fatal with
        | true => rw [(exec_reaches h).get_of_fatal alive]
        | false =>
          obtain ⟨hreset, -⟩ := Proofs.reentrantCommandIsFatal s w tracing false 0 hc alive
          cases hreset.symm.trans h
          rw [← State.raiseFatal_eq_latched]
          exact (Proc.SameButLatch.raiseFatal s w _ w).pc
  | start t pc =>
    obtain hsame | ⟨hacts, hafter⟩ := exec_leftBy (by simp) h w
    · exact hsame.pc
    · cases t with
      | lane j => exact absurd hacts (hlane rfl)
      | self => rw [hafter]; rfl
  | _ =>
    obtain hsame | ⟨-, hafter⟩ := exec_leftBy (by simp) h w
    · exact hsame.pc
    · rw [hafter, Proc.after_pc _ _ (by simp) (by simp)]

/-- Records neither appear nor vanish. -/
theorem Reaches.present {A : Who → Prop} {s s' : State} {w : Who} (h : Reaches A s s') (hw : (s.proc? w).isSome = true) :
    (s'.proc? w).isSome = true := by
  obtain ⟨-, -, -, hlength, -⟩ := h.around_keeps
  cases w with
  | top => rfl
  | lane i => simpa [hlength] using hw

namespace State

theorem Issues.reaches : ∀ {is : List Instr} {s s1 : State}, Issues is s s1 → Reaches (fun _ => True) s s1
  | [], _, _, h => h ▸ .refl
  | _ :: _, _, _, ⟨_, hexec, h⟩ => (exec_reaches hexec).trans h.reaches

theorem Issues.pc {w : Who} {tracing : Bool} : ∀ {is : List Instr} {s s1 : State},
    s.ctx = .exec w tracing → Issues is s s1 → (s1.get w).pc = (s.get w).pc
  | [], _, _, _, h => h ▸ rfl
  | _ :: _, _, _, hc, ⟨_, hexec, h⟩ => by
    obtain ⟨-, hctx, -⟩ := (exec_reaches hexec).around_keeps
    exact (h.pc (hctx.trans hc)).trans (exec_handler_pc hc hexec)

@[simp] theorem atHandler_get (s : State) (w : Who) (tracing : Bool) (insn : InsnWord) (h : HandlerToken) (v : Who) :
    (s.atHandler w tracing insn h).get v = s.get v := get_congr rfl rfl v

namespace Executes

variable {s s1 : State} {w : Who} {tracing : Bool} {o : HandlerOutcome} (he : s.Executes w tracing s1 o)
include he

/-- What the handler's commands leave is reached by writes, once the handler has returned. -/
theorem reaches : Reaches (fun _ => True) s { s1 with ctx := s.ctx } := by
  obtain ⟨fw, fs, insn, h, ws, is, ow, es, -, -, hscript, -, -, hissues⟩ := he
  have hcalled : Around s { ({ s with fetches := fs, executions := es } : State).atHandler w tracing insn h with
      ctx := s.ctx } := ⟨rfl, rfl, rfl, rfl, rfl, ⟨[_], hscript.symm⟩⟩
  exact hcalled.reaches.trans (hissues.reaches.setCtx s.ctx)

theorem cfg : s1.cfg = s.cfg := by
  obtain ⟨hcfg, -⟩ := he.reaches.around_keeps
  exact hcfg

theorem present (hw : (s.proc? w).isSome = true) (c : Context) :
    (({ s1 with ctx := c } : State).proc? w).isSome = true := by
  have hpresent := he.reaches.present hw
  cases w <;> exact hpresent

theorem laneIndex : (s1.get w).laneIndex = (s.get w).laneIndex := by
  simpa using he.reaches.get_field Proc.laneIndex UnitStep.laneIndex_eq (fun _ _ => rfl) (fun _ => rfl) w

theorem pc : (s1.get w).pc = (s.get w).pc := by
  obtain ⟨fw, fs, insn, h, ws, is, ow, es, -, -, -, -, -, hissues⟩ := he
  rw [hissues.pc (tracing := tracing) rfl, atHandler_get]
  exact congrArg Proc.pc (get_congr rfl rfl w)

end Executes

end State

/-- FATAL sets the latch of its record and writes nothing else there (R58). -/
theorem State.raiseFatal_get_self {s : State} {w : Who} (hw : (s.proc? w).isSome = true) (r : FatalReason) :
    (s.raiseFatal w r).get w = { s.get w with fatal := true } := by
  obtain hsame | hset := s.raiseFatal_get w r w
  · have hfatal := State.raiseFatal_get_fatal hw r
    rw [hsame] at hfatal ⊢
    rw [← hfatal]
  · exact hset

/-! ### From the iteration to the answer -/

/-- How the loop goes on after an iteration, with `k` of the budget left and `retired` instructions behind it. -/
def Iteration.proceed (f : Target → Bool → BitVec 64 → State → Result) (w : Who) (tracing : Bool) (k retired : Nat) :
    Iteration → Result
  | .retired s => loop f w tracing k (retired + 1) s
  | .laneComplete s => .next (s.closeStep w .laneComplete retired)
  | .halted s => .next (s.respond .halted retired)
  | .fatal s => .next (s.respond .fatal retired)
  | .stopped e => .fault e
  | .refused e => .refused e

theorem loop_succ (f : Target → Bool → BitVec 64 → State → Result) (w : Who) (tracing : Bool) (k retired : Nat)
    (s : State) :
    loop f w tracing (k + 1) retired s = (iterate f w tracing s).proceed f w tracing k retired := by
  rw [loop]
  cases iterate f w tracing s <;> rfl

section FirstIteration

variable {s s1 : State} {t : Target} {w : Who} {tracing : Bool} {n : BitVec 64} (haccepts : s.Accepts t w)
  (hidle : s.ctx = .idle)
include haccepts hidle

/-- A running record's STEP from the harness begins with an iteration, unless its budget is zero. -/
theorem exec_step_iterate (hrun : (s.get w).run = true) (hn : n ≠ 0) :
    exec (.step t tracing n) s =
      (iterate (handlerStep w tracing) w tracing s).proceed (handlerStep w tracing) w tracing (n.toNat - 1) 0 := by
  obtain ⟨tr, htracing, hexec⟩ := exec_step_eq_stepUnit haccepts (.inl hidle) tracing n
  obtain rfl := htracing hidle
  have hbudget : n.toNat = n.toNat - 1 + 1 := by
    have hne : n.toNat ≠ 0 := fun h => hn (BitVec.eq_of_toNat_eq h)
    omega
  rw [hexec, hbudget, ← loop_succ]
  simp [stepUnit, haccepts.alive, hrun]

/-- With an instruction fetched and its handler run, the first iteration is what the loop does with its outcome. -/
theorem exec_step_executes {o : HandlerOutcome} (hquiet : s.Quiet w) (hn : n ≠ 0) (he : s.Executes w tracing s1 o)
    (alive : (s1.get w).fatal = false) :
    exec (.step t tracing n) s =
      (finishIteration w tracing o { s1 with ctx := .idle }).proceed (handlerStep w tracing) w tracing
        (n.toNat - 1) 0 := by
  rw [exec_step_iterate haccepts hidle hquiet.running hn,
    iterate_of_executes (fun i _ hc => runInstr_handlerStep i hc) hquiet haccepts.alive he, if_neg (by simp [alive]),
    hidle]

end FirstIteration

/-! ### CONTINUE -/

theorem State.upd_upd (s : State) (w : Who) (f g : Proc → Proc) : (s.upd w f).upd w g = s.upd w (g ∘ f) := by
  cases w <;> simp [State.upd, List.modify_modify_eq]

/-- The end of a STEP that retired one instruction (R146, R176). -/
theorem Proc.closeBatch_one (p : Proc) :
    p.closeBatch 1 = { p with
      cycle := p.cycle + 1
      count := p.count + 1
      pending := if p.count.toNat < p.compare.toNat ∧ p.count.toNat + 1 ≥ p.compare.toNat then p.pending ||| 0x80
        else p.pending } := by
  have hcount : p.count + 1 = BitVec.ofNat 32 (p.count.toNat + 1) := by simp [BitVec.ofNat_add]
  rw [hcount]
  rfl

/-! ### Trap entries that are counted -/

/-- Trap entry of a recognised cause with a scripted bad address: its events, and one write to the record (R122). -/
theorem State.enterTrap_of_script {s : State} {b : Word} {bs : List Word} (hscript : s.badAddrs = b :: bs) (w : Who)
    (tracing : Bool) {c : Cause} (hc : c.toNat < firstBadCause) :
    s.enterTrap w tracing c =
      (({ s with badAddrs := bs } : State).emitAll (s.trapEvents w tracing c ++ [.getLastBadVirtualAddress w])).upd w
        (Proc.enterTrap s.cfg c b) := by
  rw [State.enterTrap_recognised s w tracing hc, State.badAddress_of_script hscript]

/-- A scripted fetch answers the script's next and is emitted (R71). -/
theorem State.fetch_of_script {s : State} {fw : FetchWord} {fs : List FetchWord} (hscript : s.fetches = fw :: fs)
    (w : Who) :
    s.fetch w = (decodeFetch fw,
      ({ s with fetches := fs } : State).emit (.fetchInstruction w (s.get w).pc (srEC (s.get w).sr))) := by
  simp only [State.fetch, State.emit_fetches, hscript]
  rfl

/-- `s'` is `s` after a trap entry of `w` for the cause `c`, for which the MMU answered `b`, and after the end of the STEP
that retired it alone; `bs` is what is left of the bad addresses' script. -/
structure TrapRetired (s : State) (w : Who) (c : Cause) (b : Word) (bs : List Word) (s' : State) : Prop where
  record : s'.get w = ((s.get w).enterTrap s.cfg c b).closeBatch 1
  others : ∀ v, v ≠ w → s'.get v = s.get v
  fetches : s'.fetches = s.fetches
  executions : s'.executions = s.executions
  badAddrs : s'.badAddrs = bs
  answer : s'.events.head? = some (.stepResponse (encodeStepResponse .budget 1))

theorem enterTrap_closeStep {s : State} {w : Who} (hw : (s.proc? w).isSome = true) {b : Word} {bs : List Word}
    (hscript : s.badAddrs = b :: bs) (tracing : Bool) {c : Cause} (hc : c.toNat < firstBadCause) :
    TrapRetired s w c b bs ((s.enterTrap w tracing c).closeStep w .budget 1) := by
  have hget : ∀ es v, (({ s with badAddrs := bs } : State).emitAll es).get v = s.get v :=
    fun _ v => State.get_congr rfl rfl v
  have hpresent : ∀ es, ((({ s with badAddrs := bs } : State).emitAll es).proc? w).isSome = true := by
    cases w <;> exact fun _ => hw
  rw [State.enterTrap_of_script hscript w tracing hc]
  constructor
  case record => rw [State.closeStep_get (by simpa using hpresent _), State.get_upd_same (hpresent _), hget]
  case others =>
    intro v hv
    rw [State.closeStep, State.respond_get, State.get_upd_ne _ hv, State.get_upd_ne _ hv, hget]
  all_goals simp [State.closeStep, State.respond, State.emitAll]

/-- A trap entry of a recognised cause in the only iteration of a STEP 1 is retired and ends the STEP (R136, R147). -/
theorem proceed_trapIteration {s : State} {w : Who} (hw : (s.proc? w).isSome = true) (alive : (s.get w).fatal = false)
    {b : Word} {bs : List Word} (hscript : s.badAddrs = b :: bs) (tracing : Bool) {c : Cause}
    (hc : c.toNat < firstBadCause) (f : Target → Bool → BitVec 64 → State → Result) :
    ∃ s', (trapIteration w tracing c s).proceed f w tracing ((1 : BitVec 64).toNat - 1) 0 = .next s' ∧
      TrapRetired s w c b bs s' := by
  rw [trapIteration_recognised hw alive tracing hc]
  exact ⟨_, rfl, enterTrap_closeStep hw hscript tracing hc⟩

/-! ### Deliveries at a boundary -/

/-- DELIVER_IRQ asks no collaborator anything (R124). -/
theorem deliverTo_scripts (t : Target) (k : BitVec 3) (s : State) :
    (deliverTo t k s).fetches = s.fetches ∧ (deliverTo t k s).executions = s.executions ∧
      (deliverTo t k s).badAddrs = s.badAddrs := by
  unfold deliverTo State.onTarget
  split
  · simp
  · split
    · simp
    · split <;> simp

theorem State.Issues.deliveries_scripts : ∀ {is : List Instr} {s s1 : State}, (∀ i ∈ is, ∃ t k, i = .deliverIrq t k) →
    Issues is s s1 → s1.fetches = s.fetches ∧ s1.executions = s.executions ∧ s1.badAddrs = s.badAddrs
  | [], _, _, _, h => h ▸ ⟨rfl, rfl, rfl⟩
  | i :: is, s, s1, hd, ⟨s2, hexec, h⟩ => by
    obtain ⟨t, k, rfl⟩ := hd i (by simp)
    obtain ⟨hf, he, hb⟩ := h.deliveries_scripts fun j hj => hd j (by simp [hj])
    obtain ⟨hf2, he2, hb2⟩ := deliverTo_scripts t k s
    cases hexec
    exact ⟨hf.trans hf2, he.trans he2, hb.trans hb2⟩

/-- What lands at a boundary are deliveries (R152). -/
theorem State.arriving_deliverIrq (s : State) (w : Who) : ∀ i ∈ s.arriving w, ∃ t k, i = .deliverIrq t k := by
  intro i hi
  cases w with
  | top =>
    obtain ⟨d, -, rfl⟩ := List.mem_map.mp hi
    exact ⟨_, _, rfl⟩
  | lane j =>
    obtain ⟨k, -, rfl⟩ := List.mem_map.mp hi
    exact ⟨_, _, rfl⟩

/-- The deliveries of a boundary leave the scripts of the MMU and of the handlers alone. -/
theorem State.Issues.arriving_scripts {s s1 : State} {w : Who} (h : Issues (s.arriving w) (s.pastArrivals w) s1) :
    s1.fetches = s.fetches ∧ s1.executions = s.executions ∧ s1.badAddrs = s.badAddrs := by
  have hscripts := h.deliveries_scripts (s.arriving_deliverIrq w)
  cases w <;> exact hscripts

end Sys2Proof.Machine

namespace Sys2Proof.Proofs

open Sys2Proof Sys2Proof.Machine

/-- Settles O37: the outcome writes `pc`, the end of the STEP closes a batch of one, and both are one write to the record. -/
theorem continueRetiresOne : Obligations.ContinueRetiresOne := by
  intro s s1 t w tracing npc haccepts hidle hquiet he alive
  have hpresent := he.present haccepts.present .idle
  have hexec : exec (.step t tracing 1) s = .next ((({ s1 with ctx := .idle } : State).upd w
      fun p => { p with pc := npc }).closeStep w .budget 1) :=
    exec_step_executes haccepts hidle hquiet (by decide) he alive
  rw [hexec, State.closeStep, State.upd_upd, State.upd_eq_withProc hpresent, Function.comp_apply, State.get_setCtx,
    Proc.closeBatch_one]
  rfl

/-- Settles O38: the boundary's deliveries land first, the check that follows sees them, and a trap entry is the whole
iteration. -/
theorem interruptTakenBeforeFetch : Obligations.InterruptTakenBeforeFetch := by
  intro s s1 t w tracing c haccepts hc hissues alive hcheck
  have hland := landDeliveries_of_issues haccepts hc hissues
  have hreaches : Reaches (fun _ => True) s s1 := hland ▸ landDeliveries_reaches_any w s
  obtain ⟨hcfg, -⟩ := hreaches.around_keeps
  have hpresent := hreaches.present haccepts.present
  have hlt := takeInterruptIfAny_lt hcheck
  have hiterate : ∀ f, iterate f w tracing s = .retired (s1.enterTrap w tracing c) :=
    fun f => iterate_interrupt hland hpresent alive hcheck
  refine ⟨hiterate, fun b bs hidle hrun hscript => ?_⟩
  obtain ⟨hfetches, hexecutions, hbadAddrs⟩ := hissues.arriving_scripts
  obtain ⟨s', hproceed, htrap⟩ := proceed_trapIteration hpresent alive (hbadAddrs.trans hscript) tracing hlt
    (handlerStep w tracing)
  rw [trapIteration_recognised hpresent alive tracing hlt, ← hiterate (handlerStep w tracing)] at hproceed
  exact ⟨s', (exec_step_iterate haccepts hidle hrun (by decide)).trans hproceed, hcfg ▸ htrap.record, htrap.others,
    htrap.fetches.trans hfetches, htrap.executions.trans hexecutions, htrap.badAddrs, htrap.answer⟩

/-- Settles O39: after the fetch the iteration is a trap entry, and the scripts of the handlers are untouched. -/
theorem fetchFaultTraps : Obligations.FetchFaultTraps := by
  intro s t w tracing fw fs c b bs haccepts hidle hquiet hfetches hfault hc hscript
  have haround := Around.fetch s w
  have hfetch := State.fetch_of_script hfetches w
  have hiterate : iterate (handlerStep w tracing) w tracing s = trapIteration w tracing c (s.fetch w).2 := by
    rw [iterate_quiet hquiet haccepts.alive, hfetch, hfault]
  obtain ⟨s', hproceed, htrap⟩ := proceed_trapIteration (s := (s.fetch w).2) (by rw [haround.proc?]; exact haccepts.present)
    (by rw [haround.get]; exact haccepts.alive) (by rw [hfetch]; exact hscript) tracing hc (handlerStep w tracing)
  refine ⟨s', ?_, ?_, fun v hv => (htrap.others v hv).trans (haround.get v), ?_, ?_, htrap.badAddrs, htrap.answer⟩
  · rw [exec_step_iterate haccepts hidle hquiet.running (by decide), hiterate]
    exact hproceed
  · rw [htrap.record, haround.get, haround.cfg]
  · rw [htrap.fetches, hfetch]
    rfl
  · rw [htrap.executions, hfetch]
    rfl

/-- Settles O40: the trap entry starts from what the handler's commands left, and they left `pc` at the instruction. -/
theorem handlerTrapTraps : Obligations.HandlerTrapTraps := by
  intro s s1 t w tracing c b bs haccepts hidle hquiet he alive hc hscript
  have hpresent := he.present haccepts.present .idle
  obtain ⟨s', hproceed, htrap⟩ := proceed_trapIteration (s := { s1 with ctx := .idle }) hpresent
    ((congrArg Proc.fatal (s1.get_setCtx .idle w)).trans alive) hscript tracing hc (handlerStep w tracing)
  have hrecord : s'.get w = ((s1.get w).enterTrap s.cfg c b).closeBatch 1 := by
    rw [htrap.record, State.get_setCtx, ← he.cfg]
  refine ⟨s', (exec_step_executes haccepts hidle hquiet (by decide) he alive).trans hproceed, hrecord,
    fun v hv => (htrap.others v hv).trans (s1.get_setCtx .idle v), ?_, htrap.fetches, htrap.executions, htrap.badAddrs,
    htrap.answer⟩
  rw [hrecord, ← he.pc]
  rfl

/-- Settles O41: the trap entry of an unrecognised cause is a FATAL, which ends the loop before anything is counted. -/
theorem handlerBadCauseEndsStep : Obligations.HandlerBadCauseEndsStep := by
  intro s s1 t w tracing n c haccepts hidle hquiet hn he alive hc
  have hpresent := he.present haccepts.present .idle
  have hrecord := State.raiseFatal_get_self hpresent .badCause
  have hfatal : finishIteration w tracing (.trap c) { s1 with ctx := .idle } =
      .fatal (State.raiseFatal { s1 with ctx := .idle } w .badCause) := by
    have hentry : State.enterTrap { s1 with ctx := .idle } w tracing c =
        State.raiseFatal { s1 with ctx := .idle } w .badCause := if_pos hc
    simp [finishIteration, trapIteration, hentry, hrecord]
  have hexec := exec_step_executes haccepts hidle hquiet hn he alive
  rw [hfatal] at hexec
  refine ⟨_, hexec, ?_, ?_, rfl⟩
  · rw [State.respond_get, hrecord, State.get_setCtx]
  · rw [State.respond_top, State.raiseFatal_top]

/-- Settles O42: HALT is RESET of the stepping record, which overwrites what the handler's commands wrote there. -/
theorem haltResetsAndEndsStep : Obligations.HaltResetsAndEndsStep := by
  intro s s1 t w tracing n haccepts hidle hquiet hn he alive
  have hpresent := he.present haccepts.present .idle
  have halive : (({ s1 with ctx := .idle } : State).get w).fatal = false := by rw [State.get_setCtx]; exact alive
  have hreset := State.resetUnit_proc? halive
  refine ⟨_, exec_step_executes haccepts hidle hquiet hn he alive, ?_, ?_, ?_, rfl⟩
  · rw [State.respond_get, resetUnit_get hpresent halive, State.get_setCtx]
    exact congrArg (Proc.atReset · (s1.get w)) he.cfg
  · intro i p hi hp
    have hlane := hreset (.lane i)
    rw [State.proc?_lane, State.proc?_lane] at hlane
    rw [State.respond_lanes, hlane, hp, he.cfg]
    by_cases htop : w = .top
    · cases hf : p.fatal <;> simp [htop, hf, Proc.reset_eq_atReset]
    · simp [htop, Ne.symm hi]
  · intro htop
    have hother := hreset .top
    rw [if_neg (by simp [htop, Ne.symm htop])] at hother
    exact Option.some.inj hother

/-- Settles O43: LANE_COMPLETE closes a batch of none, on a record that is a lane's whatever the commands were. -/
theorem laneCompleteEndsLaneStep : Obligations.LaneCompleteEndsLaneStep := by
  intro s s1 i tracing n haccepts hidle hquiet hlane hn he alive
  have hcomplete : finishIteration (.lane i) tracing .laneComplete { s1 with ctx := .idle } =
      .laneComplete { s1 with ctx := .idle } := by
    simp [finishIteration, he.laneIndex, hlane]
  have hexec : exec (.step (.lane i) tracing n) s =
      .next (State.closeStep { s1 with ctx := .idle } (.lane i) .laneComplete 0) := by
    rw [exec_step_executes haccepts hidle hquiet hn he alive, hcomplete]
    rfl
  rw [State.closeStep, State.upd_closeBatch_zero] at hexec
  refine ⟨_, hexec, ⟨rfl, rfl, rfl⟩, ?_, rfl⟩
  rw [State.respond_get, State.get_setCtx, he.pc]

/-- Settles O44: on the top-level record LANE_COMPLETE is a FATAL, and the commands left `pc` where it was. -/
theorem laneCompleteOnTopIsFatal : Obligations.LaneCompleteOnTopIsFatal := by
  intro s s1 tracing n haccepts hidle hquiet htop hn he alive
  have hindex : s1.top.laneIndex = -1 := he.laneIndex.trans htop
  have hpc : s1.top.pc = s.top.pc := he.pc
  have hfatal : finishIteration .top tracing .laneComplete { s1 with ctx := .idle } =
      .fatal (State.raiseFatal { s1 with ctx := .idle } .top .laneCompleteOnTop) := by
    simp [finishIteration, hindex]
  have hexec := exec_step_executes haccepts hidle hquiet hn he alive
  rw [hfatal] at hexec
  exact ⟨_, hexec, rfl, hpc, rfl, rfl⟩

end Sys2Proof.Proofs
end

section
/-! PROOFS. What the STEP of a lane can reach beyond that lane: its owner's latch, and only with its own (R58, R155). -/

namespace Sys2Proof.Machine

/-- A STEP of a lane, from the harness or from the owner's handler, writes that lane and no other record, but for the
latch that a FATAL of the lane sets in its owner. -/
theorem exec_step_lane_reaches {s s' : State} {i : Nat} {tracing : Bool} {n : BitVec 64}
    (haccepts : s.Accepts (.lane i) (.lane i)) (h : exec (.step (.lane i) tracing n) s = .next s') :
    Reaches (fun w => w = .lane i) s s' := by
  obtain ⟨tr, -, hexec⟩ := exec_step_eq_stepUnit haccepts (.inr (by simp)) tracing n
  exact stepUnit_lane_reaches (hexec.symm.trans h)

namespace Reaches

variable {s s' : State} {i : Nat}

/-- Writes to one lane leave every other lane as it was: a FATAL of a lane sets no other lane's latch. -/
theorem lanes_ne (h : Reaches (fun w => w = .lane i) s s') {j : Nat} (hj : j ≠ i) : s'.lanes[j]? = s.lanes[j]? := by
  have hupd : ∀ (s1 : State) f, (s1.upd (.lane i) f).lanes[j]? = s1.lanes[j]? := fun s1 f =>
    State.proc?_upd_ne s1 (w := .lane i) (w' := .lane j) (by simpa using hj) f
  refine h.keeps (fun s1 => s1.lanes[j]? = s.lanes[j]?) rfl ?_ ?_ ?_ ?_
  · exact fun s1 s2 ha hs => ha.lanes ▸ hs
  · rintro s1 w f rfl - - hs
    exact (hupd s1 f).trans hs
  · rintro s1 k pc hk - hs
    obtain rfl := Who.lane.inj hk
    exact (hupd s1 _).trans hs
  · rintro s1 w r rfl - hs
    exact (hupd s1 _).trans hs

/-- Writes to one lane set its owner's latch only with its own. -/
theorem owner_latch (h : Reaches (fun w => w = .lane i) s s') (hi : (s.proc? (.lane i)).isSome = true)
    (alive : s.top.fatal = false) (hlatch : s'.top.fatal = true) : (s'.get (.lane i)).fatal = true := by
  have hkept := h.keeps (fun s1 => (s1.proc? (.lane i)).isSome = true ∧
    (s1.top.fatal = true → (s1.get (.lane i)).fatal = true)) ⟨hi, fun hf => by simp [alive] at hf⟩ ?_ ?_ ?_ ?_
  · exact hkept.2 hlatch
  · rintro s1 s2 ha ⟨hp, hs⟩
    exact ⟨by rwa [ha.proc?], fun hf => by rw [ha.get]; exact hs (ha.top ▸ hf)⟩
  · rintro s1 w f rfl - hf ⟨hp, hs⟩
    exact ⟨by rwa [State.proc?_upd_isSome], fun ht => by rw [State.get_upd_same hp, hf.fatal_eq]; exact hs ht⟩
  · rintro s1 k pc hk - ⟨hp, hs⟩
    obtain rfl := Who.lane.inj hk
    exact ⟨by rwa [State.proc?_upd_isSome], fun ht => by rw [State.get_upd_same hp]; exact hs ht⟩
  · rintro s1 w r rfl - ⟨hp, -⟩
    exact ⟨by simpa using hp, fun _ => State.raiseFatal_get_fatal hp r⟩

end Reaches

end Sys2Proof.Machine

namespace Sys2Proof.Proofs

open Sys2Proof Sys2Proof.Machine

/-- Settles O47: the STEP is a sequence of writes to that lane, and of FATALs of it. -/
theorem laneStepLeavesOwnerAlone : Obligations.LaneStepLeavesOwnerAlone := by
  intro s s' i tracing n haccepts h
  have hreaches := exec_step_lane_reaches haccepts h
  obtain ⟨htop, -, -⟩ := State.resolve_lane_eq_some haccepts.resolves
  have alive : (s.get s.presented).fatal = false := haccepts.presented_alive
  rw [htop] at alive
  refine ⟨fun j hj => hreaches.lanes_ne hj, ?_, hreaches.owner_latch haccepts.present alive⟩
  obtain ⟨b, hb⟩ := hreaches.get_of_not_mem (w := .top) (by simp)
  simp only [State.get_top] at hb
  rw [hb]

end Sys2Proof.Proofs
end

section
/-! PROOFS. The vector lane commands (R161 to R168): each is one write to the record it names, and START names a lane. -/

namespace Sys2Proof.Machine

variable {s : State} {t : Target} {w : Who}

/-- An accepted command that makes one write replaces the record it names. -/
theorem onTarget_upd_accepts (h : s.Accepts t w) (f : Proc → Proc) :
    s.onTarget t (fun v => s.upd v f) = s.withProc w (f (s.get w)) := by
  rw [onTarget_accepts h, State.upd_eq_withProc h.present]

theorem exec_setVregs_accepts (h : s.Accepts t w) (x f : BitVec 6) :
    exec (.setVregs t x f) s = .next (s.withProc w ((s.get w).setVregs x f)) :=
  congrArg Host.Outcome.next (onTarget_upd_accepts h _)

theorem exec_setBanks_accepts (h : s.Accepts t w) (m : BitVec 16) :
    exec (.setBanks t m) s = .next (s.withProc w ((s.get w).setBanks s.cfg m)) :=
  congrArg Host.Outcome.next (onTarget_upd_accepts h _)

theorem exec_recomputeVlmax_accepts (h : s.Accepts t w) :
    exec (.recomputeVlmax t) s = .next (s.withProc w ((s.get w).recomputeVlmax s.cfg)) :=
  congrArg Host.Outcome.next (onTarget_upd_accepts h _)

theorem exec_setVl_accepts (h : s.Accepts t w) (r : BitVec 64) :
    exec (.setVl t r) s = .next (s.withProc w ((s.get w).setVl r)) :=
  congrArg Host.Outcome.next (onTarget_upd_accepts h _)

theorem exec_start_lane_accepts {i : Nat} (h : s.Accepts (.lane i) w) (pc : Word) :
    exec (.start (.lane i) pc) s = .next (s.withProc w ((s.get w).start pc)) :=
  congrArg Host.Outcome.next (onTarget_upd_accepts h _)

/-- START of the presented record itself is FATAL(bad_target): only a lane can be started (R168). -/
theorem exec_start_self (alive : (s.get s.presented).fatal = false) (pc : Word) :
    exec (.start .self pc) s = .next (s.latched s.presented .badTarget) := by
  simp [exec, execStart, State.onTarget, State.resolve, alive, State.raiseFatal_eq_latched]

/-- START of a lane index that names no lane is FATAL(bad_target) (R92, R168). -/
theorem exec_start_bad_lane {i : Nat} (alive : (s.get s.presented).fatal = false)
    (hbad : s.presented ≠ .top ∨ s.cfg.maxLanes ≤ i) (pc : Word) :
    exec (.start (.lane i) pc) s = .next (s.latched s.presented .badTarget) :=
  congrArg Host.Outcome.next (onTarget_of_resolve_none alive (State.resolve_lane_eq_none hbad) _)

end Sys2Proof.Machine

namespace Sys2Proof.Proofs

open Sys2Proof Sys2Proof.Machine

/-- Settles O51: the opcode's row of the decoder, and one write to the record the command names. -/
theorem setVregsResult : Obligations.SetVregsResult := by
  constructor
  · intro c hop
    simp [decode, hop]
  · intro s t w x f haccepts
    exact exec_setVregs_accepts haccepts x f

/-- Settles O52: the operand is masked to the banks there are, and the banks are counted after masking. -/
theorem setBanksResult : Obligations.SetBanksResult := by
  intro s t w m haccepts
  exact exec_setBanks_accepts haccepts m

/-- Settles O53: the two rows of the formula are the two branches of `Proc.vlCapacity`. -/
theorem recomputeVlmaxResult : Obligations.RecomputeVlmaxResult := by
  constructor
  · intro c hop
    simp [decode, hop]
  · rintro s t w haccepts req m rfl rfl
    exact exec_recomputeVlmax_accepts haccepts

/-- Settles O54: the opcode's row of the decoder, and one write to the record the command names. -/
theorem setVlResult : Obligations.SetVlResult := by
  constructor
  · intro c hop
    simp [decode, hop]
  · intro s t w r haccepts
    exact exec_setVl_accepts haccepts r

/-- Settles O55: a lane is written once; the presented record itself and an index without a lane are bad targets. -/
theorem startResult : Obligations.StartResult := by
  refine ⟨fun c hop => ?_, fun s i pc haccepts => ?_, fun s pc alive => ?_, fun s i pc alive hbad => ?_⟩
  · simp [decode, hop]
  · exact exec_start_lane_accepts haccepts pc
  · exact exec_start_self alive pc
  · exact exec_start_bad_lane alive hbad.symm pc

end Sys2Proof.Proofs
end

section
/-! PROOFS. The timer: a batch sets the timer's bit exactly when `compare` is ahead of `count` and the batch reaches it
(R176), and what follows for the corner cases (R177) and after a crossing (R178). -/

namespace Sys2Proof.Machine

namespace Proc
variable {p : Proc} {retired : Nat}

@[simp] theorem timerUpdate_compare : (p.timerUpdate retired).compare = p.compare := rfl
@[simp] theorem clearPending_compare (m : BitVec 8) : (p.clearPending m).compare = p.compare := rfl
@[simp] theorem clearPending_count (m : BitVec 8) : (p.clearPending m).count = p.count := rfl

theorem timerUpdate_zero (p : Proc) : p.timerUpdate 0 = p := by
  have hclose := p.closeBatch_zero
  rwa [closeBatch, BitVec.add_zero] at hclose

/-- `count` holds the unwrapped sum as long as that fits in its 32 bits. -/
theorem timerUpdate_count_toNat (hfits : p.count.toNat + retired < 2 ^ 32) :
    (p.timerUpdate retired).count.toNat = p.count.toNat + retired :=
  Nat.mod_eq_of_lt hfits

theorem timerUpdate_pending_of_crossing (hahead : p.count.toNat < p.compare.toNat)
    (hreached : p.compare.toNat ≤ p.count.toNat + retired) :
    (p.timerUpdate retired).pending = p.pending ||| 0x80 :=
  if_pos ⟨hahead, hreached⟩

/-- A `compare` that `count` has already reached does not fire, however long the batch. -/
theorem timerUpdate_pending_of_passed (hpassed : p.compare.toNat ≤ p.count.toNat) (retired : Nat) :
    (p.timerUpdate retired).pending = p.pending :=
  if_neg fun hcross => Nat.not_lt.mpr hpassed hcross.1

/-- A batch that changes the pending bits started with `compare` ahead of `count`. -/
theorem count_lt_compare_of_timerUpdate_pending_ne (hne : (p.timerUpdate retired).pending ≠ p.pending) :
    p.count.toNat < p.compare.toNat :=
  Nat.lt_of_not_le fun hpassed => hne (timerUpdate_pending_of_passed hpassed retired)

end Proc

end Sys2Proof.Machine

namespace Sys2Proof.Proofs

open Sys2Proof Sys2Proof.Machine

/-- Settles O49: each case says whether `compare` is ahead of `count` and whether the batch reaches it. -/
theorem timerCornerCases : Obligations.TimerCornerCases := by
  intro p
  refine ⟨p.timerUpdate_zero, fun r hzero => ?_, fun r heq => ?_, fun r hahead hlands => ?_,
    fun r hahead hreached => ?_, fun hcount hcompare => ⟨?_, ?_⟩, fun hcount hcompare => ⟨?_, ?_, ?_⟩,
    fun r hlong hahead => ?_⟩
  · exact Proc.timerUpdate_pending_of_passed (by simp [hzero]) r
  · exact Proc.timerUpdate_pending_of_passed (by rw [heq]) r
  · exact Proc.timerUpdate_pending_of_crossing hahead hlands.ge
  · exact Proc.timerUpdate_pending_of_crossing hahead hreached
  · exact Proc.timerUpdate_pending_of_crossing (by simp [hcount, hcompare]) (by simp [hcount, hcompare])
  · simp [Proc.timerUpdate, hcount]
  · exact Proc.timerUpdate_pending_of_passed (by simp [hcount, hcompare]) 4
  · simp [Proc.timerUpdate, hcount]
  · intro q r hone hne
    have hlt := Proc.count_lt_compare_of_timerUpdate_pending_ne hne
    rw [hone] at hlt
    exact BitVec.eq_of_toNat_eq (Nat.lt_one_iff.mp hlt)
  · have hreached : p.compare.toNat ≤ p.count.toNat + r := by omega
    exact Proc.timerUpdate_pending_of_crossing hahead hreached

/-- Settles O50: the crossing leaves `count` at or past `compare`, and clearing pending bits moves neither. -/
theorem timerFiresOncePerCrossing : Obligations.TimerFiresOncePerCrossing := by
  intro p a b m _ hreached hfits
  have hpassed : ((p.timerUpdate a).clearPending m).compare.toNat ≤ ((p.timerUpdate a).clearPending m).count.toNat := by
    simpa [Proc.timerUpdate_count_toNat hfits] using hreached
  exact Proc.timerUpdate_pending_of_passed hpassed b

end Sys2Proof.Proofs
end

section
/-! PROOFS. The state access commands (R181 to R185): what READ answers while the machine lives and while a latch is set,
the six selectors that WRITE_CR reaches, and the register files. -/

namespace Sys2Proof.Machine

variable {s : State} {t : Target} {w : Who}

/-! ### READ -/

theorem exec_read_accepts (h : s.Accepts t w) (sel : BitVec 8) : exec (.read t sel) s = .next (readAt s w sel) := by
  simp [exec, execRead, h.resolves, h.presented_alive, h.alive]

theorem exec_read_of_fatal (hf : (s.get s.presented).fatal = true) (ht : s.resolve t = some w) (sel : BitVec 8) :
    exec (.read t sel) s = .next (readWhileFatal s w sel) := by
  simp [exec, execRead, ht, hf]

theorem readAt_of_decodeSelector {sel : BitVec 8} {r : Selector} (hsel : decodeSelector sel = some r) :
    readAt s w sel = s.emitAll [.readValue (readSelector s.cfg (s.get w) r)] := by
  simp [readAt, hsel, State.emit, State.emitAll]

theorem readAt_of_decodeSelector_none {sel : BitVec 8} (hsel : decodeSelector sel = none) :
    readAt s w sel = s.latched w .badSelector := by
  simp [readAt, hsel, State.raiseFatal_eq_latched]

/-- The latch stays readable while it is set (R181; log entry 3). -/
theorem readWhileFatal_latch (s : State) (w : Who) :
    readWhileFatal s w 0x18 = s.emitAll [.readValue (if (s.get w).fatal then 1 else 0)] := by
  have hvalue : readSelector s.cfg (s.get w) .fatal = if (s.get w).fatal then 1 else 0 := setWidth_ofBool _
  simp [readWhileFatal, decodeSelector, hvalue, State.emit, State.emitAll]

/-- Whatever the selector, one value is answered and no record written (R181). -/
theorem readWhileFatal_answers (s : State) (w : Who) (sel : BitVec 8) :
    ∃ v, s.SameMachine (readWhileFatal s w sel) ∧ (readWhileFatal s w sel).events = .readValue v :: s.events := by
  unfold readWhileFatal
  split
  · exact ⟨_, ⟨rfl, rfl, rfl⟩, rfl⟩
  · exact ⟨_, ⟨rfl, rfl, rfl⟩, rfl⟩

/-! ### WRITE_CR -/

theorem exec_writeCr_accepts (h : s.Accepts t w) (sel : BitVec 8) (v : Word) :
    exec (.writeCr t sel v) s = .next (writeCrAt s w sel v) :=
  congrArg Host.Outcome.next (onTarget_accepts h _)

/-- A selector with W in R99's table: its write, and nothing else. -/
theorem exec_writeCr_writable (h : s.Accepts t w) {sel : BitVec 8} {r : Selector} {v : Word} {q : Proc}
    (hsel : decodeSelector sel = some r) (hw : writeSelector r v (s.get w) = some q) :
    exec (.writeCr t sel v) s = .next (s.withProc w q) := by
  simp [exec_writeCr_accepts h, writeCrAt, hsel, hw, State.withProc]

/-- The selectors with W in R99's table (R182). -/
def writableSelectors : List Selector := [.epc, .evec, .k0, .k1, .count, .compare]

/-- The bytes that name them (R99). -/
def writableBytes : List (BitVec 8) := [0x03, 0x04, 0x07, 0x08, 0x0A, 0x0B]

theorem mem_writableSelectors_of_writeSelector {r : Selector} {v : Word} {p q : Proc}
    (hw : writeSelector r v p = some q) : r ∈ writableSelectors := by
  cases r <;> cases hw <;> decide

theorem mem_writableBytes_of_decodeSelector :
    ∀ sel : BitVec 8, ∀ r ∈ decodeSelector sel, r ∈ writableSelectors → sel ∈ writableBytes := by decide

/-- Every other byte, in the table or not, is FATAL(bad_selector) (R182). -/
theorem exec_writeCr_not_writable (h : s.Accepts t w) {sel : BitVec 8} (hsel : sel ∉ writableBytes) (v : Word) :
    exec (.writeCr t sel v) s = .next (s.latched w .badSelector) := by
  have hnone : (decodeSelector sel).bind (fun r => writeSelector r v (s.get w)) = none := by
    refine Option.bind_eq_none_iff.mpr fun r hr => Option.eq_none_iff_forall_ne_some.mpr fun q hw => ?_
    exact hsel (mem_writableBytes_of_decodeSelector sel r hr (mem_writableSelectors_of_writeSelector hw))
  simp [exec_writeCr_accepts h, writeCrAt, hnone, State.raiseFatal_eq_latched]

/-! ### The register files -/

theorem exec_writeXpr_accepts (h : s.Accepts t w) (i : BitVec 5) (v : Word) :
    exec (.writeXpr t i v) s = .next (s.withProc w ((s.get w).writeX i v)) :=
  congrArg Host.Outcome.next (onTarget_upd_accepts h _)

theorem exec_writeFpr_accepts (h : s.Accepts t w) (i : BitVec 5) (v : Word) :
    exec (.writeFpr t i v) s = .next (s.withProc w ((s.get w).writeF i v)) :=
  congrArg Host.Outcome.next (onTarget_upd_accepts h _)

end Sys2Proof.Machine

namespace Sys2Proof.Proofs

open Sys2Proof Sys2Proof.Machine

/-- Settles O56: on a live machine the selector decides between a value and the latch; on a fatal one READ still answers. -/
theorem readResult : Obligations.ReadResult := by
  refine ⟨fun c hop => ?_, fun s t w sel haccepts => ⟨fun r hsel => ?_, fun hsel => ?_⟩,
    fun s t w hf ht => ⟨?_, fun sel => ?_⟩⟩
  · simp [decode, hop]
  · rw [exec_read_accepts haccepts, readAt_of_decodeSelector hsel]
  · rw [exec_read_accepts haccepts, readAt_of_decodeSelector_none hsel]
  · rw [exec_read_of_fatal hf ht, readWhileFatal_latch]
  · obtain ⟨v, hsame, hevents⟩ := readWhileFatal_answers s w sel
    exact ⟨_, v, exec_read_of_fatal hf ht sel, hsame, hevents⟩

/-- Settles O58: the six writable selectors one by one, and every other byte at once. -/
theorem writeCrResult : Obligations.WriteCrResult := by
  refine ⟨fun c hop => ?_, fun s t w v haccepts => ?_⟩
  · simp [decode, hop]
  · exact ⟨exec_writeCr_writable (r := .epc) haccepts rfl rfl, exec_writeCr_writable (r := .evec) haccepts rfl rfl,
      exec_writeCr_writable (r := .k0) haccepts rfl rfl, exec_writeCr_writable (r := .k1) haccepts rfl rfl,
      exec_writeCr_writable (r := .count) haccepts rfl rfl, exec_writeCr_writable (r := .compare) haccepts rfl rfl,
      fun _ hsel => exec_writeCr_not_writable haccepts hsel v⟩

/-- Settles O59: the opcode's row of the decoder, and one write to `x` whatever the index and the width. -/
theorem writeXprResult : Obligations.WriteXprResult := by
  constructor
  · intro c hop
    simp [decode, hop]
  · intro s t w i v haccepts
    exact exec_writeXpr_accepts haccepts i v

/-- Settles O60: the opcode's row of the decoder, and one write to `f` whatever the status holds. -/
theorem writeFprResult : Obligations.WriteFprResult := by
  constructor
  · intro c hop
    simp [decode, hop]
  · intro s t w i v haccepts
    exact exec_writeFpr_accepts haccepts i v

end Sys2Proof.Proofs
end

section
/-! PROOFS. Exceptions and the mode: a trap entry of an unrecognised cause (R203), the commands that leave supervisor
mode (R216), and the handler run that returns from a trap (R212). -/

namespace Sys2Proof.Machine

/-! ### Trap entry of an unrecognised cause -/

/-- Trap entry of an unrecognised cause is FATAL(bad_cause) on the record (R203). -/
theorem State.enterTrap_unrecognised (s : State) (w : Who) (tracing : Bool) {c : Cause}
    (hc : firstBadCause ≤ c.toNat) : s.enterTrap w tracing c = s.latched w .badCause :=
  (if_pos hc).trans (s.raiseFatal_eq_latched w .badCause)

/-! ### The mode and the trap enable in a status -/

/-- S and ET are stored as written, whatever the capabilities (R32). -/
theorem srMode_and_srCap (c : Config) (v : BitVec 32) :
    srS (v &&& srCap c) = srS v ∧ srET (v &&& srCap c) = srET v := by
  have hcap : srS (srCap c) = true ∧ srET (srCap c) = true := by
    simp only [srCap]
    cases c.cap64 <;> cases c.capFpu <;> cases c.capRvc <;> cases c.capVec <;> decide
  simp only [srS, srET] at hcap ⊢
  simp only [BitVec.getLsbD_and, hcap, Bool.and_true, and_self]

/-- The enables that a lane's RESET forces are not S (R231, R232). -/
theorem Proc.resetRaw_srS (c : Config) (p : Proc) : srS (p.resetRaw c) = srS c.resetStatusRaw := by
  unfold Proc.resetRaw
  split
  · simp [laneResetStatus, srS]
  · rfl

/-- RESET leaves the mode of the reset status, or nothing changed in a fatal record (R58, R231). -/
theorem Proc.reset_srS (c : Config) (p : Proc) :
    srS (p.reset c).sr = if p.fatal then srS p.sr else srS c.resetStatusRaw := by
  unfold Proc.reset
  split
  · rfl
  · exact (srMode_and_srCap c _).1.trans (p.resetRaw_srS c)

/-! ### Leaving supervisor mode -/

theorem Proc.SameButLatch.sr {p q : Proc} (h : p.SameButLatch q) : q.sr = p.sr := by obtain ⟨b, rfl⟩ := h; rfl

/-- No selector that WRITE_CR accepts is the status (R182). -/
theorem writeSelector_sr {r : Selector} {v : Word} {p q : Proc} (h : writeSelector r v p = some q) : q.sr = p.sr := by
  cases r <;> cases h <;> rfl

/-- Of the commands other than STEP only SET_STATUS and RESET clear S, each to the S of the status it writes (R216). -/
theorem Proc.after_srS {c : Config} {p : Proc} {i : Instr} (hp : srS p.sr = true) (h : srS (p.after c i).sr = false) :
    (∃ t v, i = .setStatus t v ∧ srS v = false) ∨ ∃ t, i = .reset t ∧ srS c.resetStatusRaw = false := by
  have hkept : (p.after c i).sr ≠ p.sr := fun hsame => by simp [hsame, hp] at h
  cases i with
  | setStatus t v => exact .inl ⟨t, v, rfl, (srMode_and_srCap c v).1.symm.trans h⟩
  | reset t =>
    refine .inr ⟨t, rfl, ?_⟩
    rw [after, reset_srS] at h
    split at h
    · rw [hp] at h
      cases h
    · exact h
  | writeCr t sel v =>
    obtain hsame | ⟨r, -, hw⟩ := p.after_writeCr c t sel v
    · exact absurd (congrArg Proc.sr hsame) hkept
    · exact absurd (writeSelector_sr hw) hkept
  | start t pc => cases t <;> exact absurd rfl hkept
  | _ => exact absurd rfl hkept

/-! ### The trap return -/

/-- What a handler is called in accepts its commands to its own record (R92, R95). -/
theorem State.atHandler_accepts {s : State} {w : Who} (present : (s.proc? w).isSome = true)
    (alive : (s.get w).fatal = false) (tracing : Bool) (insn : InsnWord) (h : HandlerToken) :
    (s.atHandler w tracing insn h).Accepts .self w where
  presented_alive := (congrArg Proc.fatal (s.atHandler_get w tracing insn h w)).trans alive
  resolves := rfl
  present := by cases w <;> exact present
  alive := (congrArg Proc.fatal (s.atHandler_get w tracing insn h w)).trans alive

/-- A handler run of TRAP_RETURN is one SET_STATUS of its own record, and answers CONTINUE epc (R102, R212). -/
theorem State.trapReturn_executes {s : State} {w : Who} (present : (s.proc? w).isSome = true)
    (alive : (s.get w).fatal = false) (tracing : Bool) {fw : FetchWord} {fs : List FetchWord} {insn : InsnWord}
    {h : HandlerToken} {es : List Execution} (hfetches : s.fetches = fw :: fs)
    (hfetched : decodeFetch fw = .fetched insn h) (hexecutions : s.executions = s.trapReturn w :: es) :
    ∃ s1, s.Executes w tracing s1 (.continueAt (s.get w).epc) ∧
      s1.get w = (s.get w).setStatus s.cfg (trapReturnStatus (s.get w).sr) := by
  have hget : ({ s with fetches := fs, executions := es } : State).get w = s.get w := State.get_congr rfl rfl w
  have haccepts := State.atHandler_accepts (s := { s with fetches := fs, executions := es })
    (by cases w <;> exact present) (hget ▸ alive) tracing insn h
  have hissues : Issues [.setStatus .self (trapReturnStatus (s.get w).sr)] _ _ :=
    ⟨_, exec_setStatus_accepts haccepts _, rfl⟩
  have hdecode : [encode (.setStatus .self (trapReturnStatus (s.get w).sr))].map decode =
      [Instr.setStatus .self (trapReturnStatus (s.get w).sr)].map .ok :=
    congrArg (fun r => [r]) (Proofs.decodeEncodeRoundTrip (.setStatus .self _) rfl)
  refine ⟨_, ⟨fw, fs, insn, h, _, _, _, es, hfetches, hfetched, hexecutions, decodeOutcome_encodeOutcome _, hdecode,
    hissues⟩, ?_⟩
  rw [State.setStatus_get haccepts.present, State.atHandler_get, hget]
  rfl

end Sys2Proof.Machine

namespace Sys2Proof.Proofs

open Sys2Proof Sys2Proof.Machine

/-- Settles O33: trap entry tests the cause before anything else, and a bad one is a FATAL. -/
theorem unrecognisedCauseIsFatal : Obligations.UnrecognisedCauseIsFatal :=
  fun s w tracing _ hc => State.enterTrap_unrecognised s w tracing hc

/-- Settles O17: the command's one write to the top-level record clears S only as the status it writes has it. -/
theorem userModeOnlyByStatusWrite : Obligations.UserModeOnlyByStatusWrite := by
  intro i s s' hc hexec hsupervisor huser
  obtain hstep | ⟨j, tr, n, -, htop, -⟩ | hsame | ⟨hacts, hafter⟩ := exec_idle_cases hc hexec .top
  · exact .inr (.inr hstep)
  · cases htop
  · have hsr : s'.top.sr = s.top.sr := hsame.sr
    rw [hsr, hsupervisor] at huser
    cases huser
  · have hself := hacts.target_of_top hc
    rw [State.get_top] at hafter
    obtain ⟨t, v, rfl, hv⟩ | ⟨t, rfl, hraw⟩ := Proc.after_srS hsupervisor (hafter ▸ huser)
    · exact .inl ⟨v, congrArg (Instr.setStatus · v) hself, hv⟩
    · exact .inr (.inl ⟨congrArg Instr.reset hself, hraw⟩)

/-- Settles O45: the handler's run is the SET_STATUS and CONTINUE epc, so the STEP is that of a CONTINUE after it. -/
theorem trapReturnResumes : Obligations.TrapReturnResumes := by
  intro s t w tracing fw fs insn h es haccepts hidle hquiet hfetches hfetched hexecutions
  obtain ⟨s1, he, hleft⟩ :=
    State.trapReturn_executes haccepts.present haccepts.alive tracing hfetches hfetched hexecutions
  have alive : (s1.get w).fatal = false := by rw [hleft]; exact haccepts.alive
  have hexec := continueRetiresOne s s1 t w tracing _ haccepts hidle hquiet he alive
  obtain ⟨hs, het⟩ := srMode_and_srCap s.cfg (trapReturnStatus (s.get w).sr)
  obtain ⟨-, -, -, -, hs', het', -⟩ := trapStatusBits (s.get w).sr
  refine ⟨_, hexec, ?_⟩
  rw [State.emitAll_get, State.get_withProc (he.present haccepts.present .idle), hleft, Proc.closeBatch_one]
  exact ⟨rfl, hs.trans hs', het.trans het'⟩

end Sys2Proof.Proofs
end

section
/-! PROOFS. An accepted RESET as a whole: what it leaves around the records (O19), a second one in a row (O21), and
that of a lane as one write and three MMU calls (O20). -/

namespace Sys2Proof.Machine

/-- An accepted RESET that is not reentrant is the reset of the unit it names (R231, R95). -/
theorem exec_reset_accepts {s : State} {t : Target} {w : Who} (h : s.Accepts t w) (hc : s.ctx = .idle ∨ t ≠ .self) :
    exec (.reset t) s = .next (s.resetUnit w) := by
  simp only [exec, execReset, onTarget_accepts h]
  cases t with
  | self => rw [hc.resolve_right (· rfl)]
  | lane i => cases s.ctx <;> rfl

/-- The status a reset of one record stores is the one it pushes to the MMU (R231, R235). -/
theorem Proc.atReset_sr (c : Config) (p : Proc) : (Proc.atReset c p).sr = p.resetRaw c &&& srCap c := rfl

theorem Proc.reset_of_alive {p : Proc} (alive : p.fatal = false) (c : Config) : p.reset c = atReset c p := by
  simp [reset_eq_atReset, alive]

/-- Resetting a record twice differs from resetting it once in the number of flushes only (R234). -/
theorem Proc.reset_reset (c : Config) (p : Proc) :
    (p.reset c).reset c = { p.reset c with flushCount := ((p.reset c).reset c).flushCount } := by
  cases hf : p.fatal with
  | true =>
    have hkept : p.reset c = p := if_pos hf
    rw [hkept, hkept]
  | false =>
    have hlatch : (atReset c p).fatal = false := hf
    rw [reset_of_alive hf, reset_of_alive hlatch]
    rfl

@[simp] theorem Proc.reset_fatal (c : Config) (p : Proc) : (p.reset c).fatal = p.fatal := by
  rw [reset_eq_atReset]; split <;> rfl

namespace State

/-- A RESET is made of writes to records and of MMU calls: what these two leave alone, it leaves alone. -/
theorem resetUnit_keeps {α : Type} (g : State → α) (hupd : ∀ s w f, g (upd s w f) = g s)
    (hcalls : ∀ s w sr, g (emitStatusCalls s w sr) = g s) (s : State) (w : Who) : g (s.resetUnit w) = g s := by
  have hone : ∀ s w, g (resetOne s w) = g s := by
    intro s w
    rw [resetOne]
    split
    · rfl
    · rw [hcalls, hupd]
  have hlanes : ∀ k s i, g (resetLanesFrom s i k) = g s := by
    intro k
    induction k with
    | zero => exact fun _ _ => rfl
    | succ k ih => intro s i; rw [resetLanesFrom, ih, hone]
  unfold resetUnit
  split
  · rfl
  · cases w with
    | top => exact (hlanes ..).trans (hone s .top)
    | lane i => exact hone s (.lane i)

@[simp] theorem resetUnit_cfg (s : State) (w : Who) : (s.resetUnit w).cfg = s.cfg :=
  resetUnit_keeps cfg upd_cfg (fun _ _ _ => rfl) s w

@[simp] theorem resetUnit_ctx (s : State) (w : Who) : (s.resetUnit w).ctx = s.ctx :=
  resetUnit_keeps ctx upd_ctx (fun _ _ _ => rfl) s w

/-- A RESET asks the collaborators for nothing. -/
theorem resetUnit_scripts (s : State) (w : Who) :
    (s.resetUnit w).fetches = s.fetches ∧ (s.resetUnit w).executions = s.executions ∧
      (s.resetUnit w).badAddrs = s.badAddrs :=
  ⟨resetUnit_keeps fetches upd_fetches (fun _ _ _ => rfl) s w,
    resetUnit_keeps executions upd_executions (fun _ _ _ => rfl) s w,
    resetUnit_keeps badAddrs upd_badAddrs (fun _ _ _ => rfl) s w⟩

section Live

variable {s : State} {w : Who} (alive : (s.get w).fatal = false)
include alive

/-- No RESET sets, clears or removes a latch (R58, R231). -/
theorem resetUnit_proc?_fatal (v : Who) :
    ((s.resetUnit w).proc? v).map Proc.fatal = (s.proc? v).map Proc.fatal := by
  rw [resetUnit_proc? alive]
  split
  · rw [Option.map_map]; congr 1; funext p; exact p.reset_fatal s.cfg
  · rfl

theorem resetUnit_get_fatal (v : Who) : ((s.resetUnit w).get v).fatal = (s.get v).fatal := by
  rw [get, get, ← Option.getD_map Proc.fatal, ← Option.getD_map Proc.fatal, resetUnit_proc?_fatal alive]

/-- A second RESET leaves every record as the first one did, but for the flushes it counts (R234). -/
theorem resetUnit_resetUnit_get (v : Who) :
    ((s.resetUnit w).resetUnit w).get v =
      { (s.resetUnit w).get v with flushCount := (((s.resetUnit w).resetUnit w).get v).flushCount } := by
  have hfirst := resetUnit_proc? alive v
  have hsecond := resetUnit_proc? ((resetUnit_get_fatal alive w).trans alive) v
  rw [resetUnit_cfg] at hsecond
  by_cases hv : v = w ∨ w = .top
  · rw [if_pos hv] at hfirst hsecond
    rw [hfirst] at hsecond
    simp only [get, hfirst, hsecond]
    cases s.proc? v with
    | none => rfl
    | some p => exact p.reset_reset s.cfg
  · rw [if_neg hv] at hsecond
    simp only [get, hsecond]

end Live

/-- A RESET of a lane writes that lane and makes the three MMU calls of its status (R231, R233, R235). -/
theorem resetUnit_lane_eq {s : State} {i : Nat} (alive : (s.get (.lane i)).fatal = false)
    (present : (s.proc? (.lane i)).isSome = true) :
    s.resetUnit (.lane i) =
      (s.withProc (.lane i) (Proc.atReset s.cfg (s.get (.lane i)))).emitAll
        (statusCalls (.lane i) (Proc.atReset s.cfg (s.get (.lane i))).sr) := by
  simp only [resetUnit, resetOne, alive, Bool.false_eq_true, if_false, upd_eq_withProc present,
    Proc.reset_of_alive alive, Proc.atReset_sr]
  rfl

/-- A target that accepted a command still does after a RESET of it: context, configuration and latches stay. -/
theorem Accepts.resetUnit {s : State} {t : Target} {w : Who} (h : s.Accepts t w) : (s.resetUnit w).Accepts t w := by
  have hpresented : (s.resetUnit w).presented = s.presented := by rw [presented, presented, resetUnit_ctx]
  refine ⟨?_, ?_, ?_, ?_⟩
  · rw [hpresented, resetUnit_get_fatal h.alive, h.presented_alive]
  · rw [← h.resolves]
    cases t <;> simp only [resolve, hpresented, resetUnit_cfg]
  · rw [← Option.isSome_map (f := Proc.fatal), resetUnit_proc?_fatal h.alive, Option.isSome_map, h.present]
  · rw [resetUnit_get_fatal h.alive, h.alive]

end State

end Sys2Proof.Machine

namespace Sys2Proof.Proofs

open Sys2Proof Sys2Proof.Machine

/-- Settles O19: the records by what RESET leaves in each of them, the rest by what it is made of. -/
theorem resetOfProcessorResult : Obligations.ResetOfProcessorResult := by
  intro s hidle alive
  have hpresented : s.presented = .top := by rw [State.presented, hidle]
  have haccepts : s.Accepts .self .top := ⟨hpresented ▸ alive, congrArg some hpresented, rfl, alive⟩
  have hreaches : Reaches (fun _ => True) s (s.resetUnit .top) := .resetUnit _ trivial fun _ _ => trivial
  obtain ⟨hcfg, hctx, hcommands, hlength, -⟩ := hreaches.around_keeps
  refine ⟨_, exec_reset_accepts haccepts (.inl hidle), resetUnit_get haccepts.present alive, ?_, hlength, hcfg, hctx,
    hcommands, State.resetUnit_scripts s .top⟩
  intro i p hp
  have hlane := State.resetUnit_proc? (w := .top) alive (.lane i)
  rw [if_pos (.inr rfl), State.proc?_lane, State.proc?_lane, hp] at hlane
  rw [hlane, Option.map_some, Proc.reset_eq_atReset]

/-- Settles O21: the first RESET leaves its target accepting the second, which writes the same values again. -/
theorem resetIsIdempotent : Obligations.ResetIsIdempotent := by
  intro s t w haccepts hc
  have hc' : (s.resetUnit w).ctx = .idle ∨ t ≠ .self := by rw [State.resetUnit_ctx]; exact hc
  exact ⟨_, _, exec_reset_accepts haccepts hc, exec_reset_accepts haccepts.resetUnit hc',
    State.resetUnit_resetUnit_get haccepts.alive⟩

/-- Settles O20: the RESET of a lane is one write to it and the MMU calls of its status write. -/
theorem resetOfLaneResult : Obligations.ResetOfLaneResult := by
  intro s i haccepts
  rw [exec_reset_accepts haccepts (.inr (by simp)), State.resetUnit_lane_eq haccepts.alive haccepts.present]

end Sys2Proof.Proofs
end
